-- ==== Sys2Proof/Word.lean ====
section
/-! DEFINITION. The value types of the core: bytes, 32-bit words, the 64-bit counter, and the fixed-size
register files built from them (00_scope.md R5 to R8, 10_state.md R20). All values are unsigned (R6). -/

namespace Sys2Proof

/-- A byte (00_scope.md R6). -/
abbrev Byte := BitVec 8

/-- A `u32`; `+` on it is addition modulo 2^32 (00_scope.md R7). -/
abbrev Word := BitVec 32

/-- A `u64`; `+` on it is addition modulo 2^64 (00_scope.md R8). -/
abbrev Counter := BitVec 64

/-- The eight words of the HashState H (10_state.md R21). -/
abbrev HashState := Vector Word 8

/-- One 64-byte block, and the contents of the MessageBuffer BUF (10_state.md R22). -/
abbrev Block := Vector Byte 64

/-- The 64 words of the message schedule W (10_state.md R28). -/
abbrev Schedule := Vector Word 64

/-- The eight working variables of the round pipeline (10_state.md R27). They are not the words of H
(90_conflicts.md C2). -/
structure Working where
  a : Word
  b : Word
  c : Word
  d : Word
  e : Word
  f : Word
  g : Word
  h : Word
  deriving DecidableEq, Repr, Inhabited

end Sys2Proof
end

