-- ==== Sys2Proof/Machine/Bytes.lean ====
section
/-! DEFINITION. Byte and word conversion, big-endian throughout (00_scope.md R10; 20_memory.md R51 to R55), and
the conversion between byte sequences and 64-byte blocks. -/

namespace Sys2Proof.Machine

/-- `BE32(b0, b1, b2, b3)`: the first byte is the most significant (00_scope.md R10). -/
def be32 (b0 b1 b2 b3 : Byte) : Word :=
  b0.zeroExtend 32 <<< 24 ||| b1.zeroExtend 32 <<< 16 ||| b2.zeroExtend 32 <<< 8 ||| b3.zeroExtend 32

/-- `BE32bytes(w) = [w[31:24], w[23:16], w[15:8], w[7:0]]` (00_scope.md R10). -/
def be32Bytes (w : Word) : List Byte :=
  [w.extractLsb' 24 8, w.extractLsb' 16 8, w.extractLsb' 8 8, w.extractLsb' 0 8]

/-- `BE64bytes(v)`, most significant byte first (00_scope.md R10). -/
def be64Bytes (v : Counter) : List Byte :=
  [v.extractLsb' 56 8, v.extractLsb' 48 8, v.extractLsb' 40 8, v.extractLsb' 32 8,
   v.extractLsb' 24 8, v.extractLsb' 16 8, v.extractLsb' 8 8, v.extractLsb' 0 8]

/-- `0x00^n`: n zero bytes (00_scope.md R10). -/
def zeroBytes (n : Nat) : List Byte := List.replicate n 0

/-- The block a sequence of 64 bytes is, in index order. Every caller hands it exactly 64 bytes
(`pad_length`, `chunk_length`), and `toList_blockOfBytes` says that nothing is then dropped or added;
the zero fill only makes the function total (log 21). -/
def blockOfBytes (l : List Byte) : Block :=
  ⟨(l.take 64 ++ zeroBytes (64 - l.length)).toArray, by simp [zeroBytes]; omega⟩

/-- The whole 64-byte blocks of a byte sequence, in order: block j is bytes 64j to 64j+63. A remainder of
fewer than 64 bytes gives no block: COMPRESS "never sees a partial block" (41_block_buffer.md R101). -/
def blocksOf (l : List Byte) : List Block :=
  (List.range (l.length / 64)).map fun j => blockOfBytes ((l.drop (64 * j)).take 64)

end Sys2Proof.Machine
end

