-- ==== Sys2Proof/Machine/Operands.lean ====
section
/-! DEFINITION. Operand assembly: the two fields of a command word and the frame a table word spells
(30_encoding.md R71, R73, R74). The core has no register operands (10_state.md R35). -/

namespace Sys2Proof.Machine

/-- OP, bits [31:24] of the command word (30_encoding.md R71). -/
def opField (w : Word) : BitVec 8 := w.extractLsb' 24 8

/-- OPERAND, bits [23:0] of the command word: LEN for UPDATE, zero for INIT and FINAL (30_encoding.md R71).
It is "not scaled, not shifted and not sign-extended" (R73). -/
def operandField (w : Word) : BitVec 24 := w.extractLsb' 0 24

/-- The command word with the given fields (30_encoding.md R71, R72). -/
def commandWord (op : BitVec 8) (operand : BitVec 24) : Word :=
  op.zeroExtend 32 <<< 24 ||| operand.zeroExtend 32

/-- The OP values of 30_encoding.md R72. -/
def opInit : BitVec 8 := 0x01
/-- The OP values of 30_encoding.md R72. -/
def opUpdate : BitVec 8 := 0x02
/-- The OP values of 30_encoding.md R72. -/
def opFinal : BitVec 8 := 0x03

/-- The bytes in CMDQ of the frame whose bits are `w`, numbered as spec/opcode_table.json numbers them: the
command word is bits 31..0 of `w`, sent big-endian (20_memory.md R54); payload byte i is bits 32+8i+7..32+8i,
in message order (30_encoding.md R74). Bits at `nbits` and above are 0 (log 9). -/
def tableBytes (nbits w : Nat) : List Byte :=
  let v := w % 2 ^ nbits
  let word : Word := BitVec.ofNat 32 v
  let n := if opField word = opUpdate then (operandField word).toNat else 0
  be32Bytes word ++ (List.range n).map fun i => BitVec.ofNat 8 (v >>> (32 + 8 * i))

end Sys2Proof.Machine
end

