-- ==== Sys2Proof/Syntax.lean ====
section
/-! DEFINITION. The instruction set: the three command frames of spec/opcode_table.json (30_encoding.md R72). -/

namespace Sys2Proof

/-- One whole command frame: the command and its operands. -/
inductive Instr where
  /-- INIT, format C, no operand (44_digest_engine.md R181). -/
  | init
  /-- UPDATE, format U: the length operand LEN of word bits [23:0] and the payload that follows the word
  (30_encoding.md R73, R74; 44_digest_engine.md R182). -/
  | update (len : BitVec 24) (data : List Byte)
  /-- FINAL, format C, no operand (44_digest_engine.md R183). -/
  | final
  deriving DecidableEq, Repr

end Sys2Proof
end

