-- ==== Sys2Proof/WellFormed.lean ====
section
/-! DEFINITION. Which terms of `Instr` a command frame can carry. -/

namespace Sys2Proof

/-- An UPDATE frame is the command word "followed by a payload: for UPDATE, exactly LEN payload bytes"
(30_encoding.md R70); INIT and FINAL carry nothing to check. -/
def Instr.wf : Instr → Bool
  | .init => true
  | .update len data => data.length == len.toNat
  | .final => true

end Sys2Proof
end

