-- ==== Sys2Proof/Decode.lean ====
section
/-! DEFINITION. The decoder of the command stream, total on any byte sequence (30_encoding.md R77), and the
encoder of a well-formed frame (R70 to R74). -/

namespace Sys2Proof

/-- Why a command word spells no command (30_encoding.md R75, R76; 60_exceptions.md R203). -/
inductive ReservedReason where
  /-- OP = 0x00 or OP in 0x04..0xFF (R75). -/
  | opcode
  /-- INIT or FINAL with a non-zero OPERAND (R76). -/
  | operand
  deriving DecidableEq, Repr

/-- What `decode` returns (30_encoding.md R77). -/
inductive Decoded where
  /-- A well-formed frame and the bytes after it. -/
  | frame (i : Instr) (rest : List Byte)
  /-- Fewer than 4 bytes, or an UPDATE word with fewer than LEN payload bytes after it. -/
  | incomplete
  /-- The first four bytes form a word that R75 or R76 refuses. -/
  | reserved (reason : ReservedReason)
  deriving DecidableEq, Repr

open Machine in
/-- What a command word followed by the bytes `q` decodes to: the body of 30_encoding.md R77's `decode` after
the word is read. -/
def decodeWord (w : Word) (q : List Byte) : Decoded :=
  let op := opField w
  let opd := operandField w
  if op = opInit then
    if opd = 0 then .frame .init q else .reserved .operand
  else if op = opFinal then
    if opd = 0 then .frame .final q else .reserved .operand
  else if op = opUpdate then
    if q.length < opd.toNat then .incomplete
    else .frame (.update opd (q.take opd.toNat)) (q.drop opd.toNat)
  else .reserved .opcode

/-- `decode(q)` of 30_encoding.md R77. -/
def decode : List Byte → Decoded
  | b0 :: b1 :: b2 :: b3 :: q => decodeWord (Machine.be32 b0 b1 b2 b3) q
  | _ => .incomplete

open Machine in
/-- The bytes of a frame: the command word big-endian, then the payload (30_encoding.md R70, R72). -/
def encode : Instr → List Byte
  | .init => be32Bytes (commandWord opInit 0)
  | .update len data => be32Bytes (commandWord opUpdate len) ++ data
  | .final => be32Bytes (commandWord opFinal 0)

/-- The bytes of a sequence of frames in the command stream (30_encoding.md R70). -/
def encodeAll (is : List Instr) : List Byte := is.flatMap encode

/-- The instruction the decoder reads from a frame whose bits are `w` in the table's numbering; none where it
refuses. -/
def decodeTableWord (nbits w : Nat) : Option Instr :=
  match decode (Machine.tableBytes nbits w) with
  | .frame i _ => some i
  | .incomplete => none
  | .reserved _ => none

end Sys2Proof
end

