-- ==== Sys2Proof/Machine/Compress.lean ====
section
/-! DEFINITION. CompressionCore: the message scheduler and the round-function pipeline, bit-exact to FIPS 180-4
(42_compression_core.md R120 to R135). Every function here is pure: it reads only its operands and the table K
(R138). The items the source does not contain are the spec's, from FIPS 180-4 (93 G1 to G13). -/

namespace Sys2Proof.Machine

/-- `SHR(x, n)` (00_scope.md R9). -/
def shr (x : Word) (n : Nat) : Word := x >>> n

/-- `ROTR(x, n) = (x >> n) | (x << (32 - n))` for n < 32 (00_scope.md R9). -/
def rotr (x : Word) (n : Nat) : Word := x >>> n ||| x <<< (32 - n)

/-- `Ch` (42_compression_core.md R121). -/
def ch (x y z : Word) : Word := (x &&& y) ^^^ (~~~x &&& z)

/-- `Maj` (42_compression_core.md R122). -/
def maj (x y z : Word) : Word := (x &&& y) ^^^ (x &&& z) ^^^ (y &&& z)

/-- Big sigma 0 (42_compression_core.md R123). -/
def bigSigma0 (x : Word) : Word := rotr x 2 ^^^ rotr x 13 ^^^ rotr x 22

/-- Big sigma 1 (42_compression_core.md R124). -/
def bigSigma1 (x : Word) : Word := rotr x 6 ^^^ rotr x 11 ^^^ rotr x 25

/-- Small sigma 0 (42_compression_core.md R125). -/
def smallSigma0 (x : Word) : Word := rotr x 7 ^^^ rotr x 18 ^^^ shr x 3

/-- Small sigma 1 (42_compression_core.md R126). -/
def smallSigma1 (x : Word) : Word := rotr x 17 ^^^ rotr x 19 ^^^ shr x 10

/-- The 16 message words of a block, big-endian: SCHEDULE words 0 to 15 (42_compression_core.md R129,
20_memory.md R51). -/
def messageWords (blk : Block) : List Word :=
  (List.finRange 16).map fun t => be32 blk[4 * t.val] blk[4 * t.val + 1] blk[4 * t.val + 2] blk[4 * t.val + 3]

/-- One step of the recurrence of 42_compression_core.md R130: from W[0..t-1], where t is the length of the list,
to W[0..t]. -/
def scheduleStep (w : List Word) : List Word :=
  let t := w.length
  w ++ [smallSigma1 (w.getD (t - 2) 0) + w.getD (t - 7) 0 + smallSigma0 (w.getD (t - 15) 0) + w.getD (t - 16) 0]

/-- SCHEDULE(blk): W[0..63], words 16 to 63 in increasing t (42_compression_core.md R129, R130). -/
def schedule (blk : Block) : List Word := scheduleStep^[48] (messageWords blk)

/-- LOAD(Hin) (42_compression_core.md R132). -/
def load (hin : HashState) : Working :=
  ⟨hin[0], hin[1], hin[2], hin[3], hin[4], hin[5], hin[6], hin[7]⟩

/-- ROUND(t) with `k` = K[t] and `w` = W[t]; every right-hand side reads the values from before the round
(42_compression_core.md R133). -/
def roundStep (v : Working) (k w : Word) : Working :=
  let t1 := v.h + bigSigma1 v.e + ch v.e v.f v.g + k + w
  let t2 := bigSigma0 v.a + maj v.a v.b v.c
  { a := t1 + t2, b := v.a, c := v.b, d := v.c, e := v.d + t1, f := v.e, g := v.f, h := v.g }

/-- ROUND(0) to ROUND(63), once each, in that order; round t uses K[t] and W[t] (42_compression_core.md R134). -/
def rounds (w : List Word) (v : Working) : Working :=
  (roundConstants.zip w).foldl (fun v kw => roundStep v kw.1 kw.2) v

/-- FEEDFORWARD(Hin): the working variables added into the input state (42_compression_core.md R135). -/
def feedForward (hin : HashState) (v : Working) : HashState :=
  #v[hin[0] + v.a, hin[1] + v.b, hin[2] + v.c, hin[3] + v.d, hin[4] + v.e, hin[5] + v.f, hin[6] + v.g, hin[7] + v.h]

/-- COMPRESS(Hin, blk) (42_compression_core.md R120). -/
def compress (hin : HashState) (blk : Block) : HashState :=
  feedForward hin (rounds (schedule blk) (load hin))

/-- Chained compression of several blocks in message order (42_compression_core.md R139). -/
def compressAll (h : HashState) (blks : List Block) : HashState := blks.foldl compress h

/-- W[t] of the sliding-window scheduler: from the block for t < 16, else from the window `wq` that holds
W[t-16..t-1] (42_compression_core.md R131). -/
def windowWord (m : List Word) (wq : List Word) (t : Nat) : Word :=
  if t < 16 then m.getD t 0
  else smallSigma1 (wq.getD 14 0) + wq.getD 9 0 + smallSigma0 (wq.getD 1 0) + wq.getD 0 0

/-- Round t of the sliding-window implementation: one round, then "the window shifts by one word and takes in
W[t]" (42_compression_core.md R131). -/
def windowRound (m : List Word) (p : Working × List Word) (t : Nat) : Working × List Word :=
  let w := windowWord m p.2 t
  (roundStep p.1 (roundConstants.getD t 0) w, p.2.drop 1 ++ [w])

/-- COMPRESS as the sliding-window implementation computes it, from a window of 16 words with any contents
(42_compression_core.md R131). The step does not use it: it is a second implementation to be proved equal to
`compress`. -/
def compressWindowed (wq : List Word) (hin : HashState) (blk : Block) : HashState :=
  feedForward hin ((List.range 64).foldl (windowRound (messageWords blk)) (load hin, wq)).1

/-- DIGEST(H): the eight words, big-endian, in order (44_digest_engine.md R184, 20_memory.md R52). -/
def digest (h : HashState) : List Byte := h.toList.flatMap be32Bytes

end Sys2Proof.Machine
end

