-- ==== Sys2Proof/Config.lean ====
section
/-! DEFINITION. The free values: what the spec leaves unspecified while the machine goes on. Each is an opaque
constant applied to the number of the draw (`State.draws`), so nothing can be proved about the value it has
(logs 5 to 8). The fixed parameters of 00_scope.md R5 are the widths of Word.lean and the tables of
Machine/Tables.lean. The OPEN parameter N_CONTEXTS is the argument of `Platform` (log 14). -/

namespace Sys2Proof

/-- H after a reset event: "unspecified (any value)" (10_state.md R39, U5). -/
opaque Config.freeHash : Nat → HashState

/-- BUF after a reset event or after FINAL (10_state.md R22, 44_digest_engine.md R183, U5, U7). -/
opaque Config.freeBlock : Nat → Block

/-- BUF_LEN after a reset event: any value in [0, 63] (10_state.md R39). -/
opaque Config.freeLen : Nat → Fin 64

/-- BITLEN after a reset event (10_state.md R39). -/
opaque Config.freeCounter : Nat → Counter

/-- The working variables a..h once a COMPRESS has ended, or after a reset event (10_state.md R27, U6). -/
opaque Config.freeWorking : Nat → Working

/-- The schedule W[0..63] once a COMPRESS has ended, or after a reset event (10_state.md R28, U6). -/
opaque Config.freeSchedule : Nat → Schedule

/-- The round counter t once a COMPRESS has ended, or after a reset event (10_state.md R29, U6). -/
opaque Config.freeRound : Nat → Fin 64

end Sys2Proof
end

