-- ==== Sys2Proof/Machine/State.lean ====
section
/-! DEFINITION. The architectural state of one core instance (10_state.md R20 to R34), the reasons a step can
stop, and the state after reset (R39). -/

namespace Sys2Proof.Machine

/-- The lifecycle register PHASE (10_state.md R25). "All four values are legal, and PHASE holds no other value";
the numeric values are `Phase.code`. -/
inductive Phase where
  /-- 0: after reset, before the first INIT. -/
  | uninit
  /-- 1: after INIT, before any UPDATE. -/
  | init
  /-- 2: after the first UPDATE, re-enterable. -/
  | updating
  /-- 3: after a successful FINAL. -/
  | finalized
  deriving DecidableEq, Repr

/-- Why the core stops with a fault (60_exceptions.md R202). -/
inductive Fault where
  /-- F_UNINIT: raised by UPDATE and FINAL while PHASE = UNINIT (R202), and by every later step of a core whose
  FAULT mark records it (R214). Safe: the model stops where the spec gives the run no meaning. -/
  | uninit
  deriving DecidableEq, Repr

/-- Why the core stops with a refusal (60_exceptions.md R203). -/
inductive Refusal where
  /-- An instruction that has no meaning in the model yet; raised by no arm of `exec`. Safe. -/
  | notModelled (mnemonic : String)
  /-- REFUSE_RESERVED_OPCODE: raised by the step on a command word with OP = 0x00 or OP >= 0x04 (30_encoding.md
  R75), and by every later step of a core whose REFUSED mark records it (R214). Safe. -/
  | reservedOpcode
  /-- REFUSE_RESERVED_OPERAND: raised by the step on an INIT or FINAL word with OPERAND != 0 (30_encoding.md
  R76), and by every later step of a core whose REFUSED mark records it (R214). Safe. -/
  | reservedOperand
  deriving DecidableEq, Repr

/-- The state of one core instance. The last field is the model's own (log 5). -/
structure State where
  /-- PHASE (10_state.md R25). -/
  phase : Phase
  /-- HashState H[0..7] (R21). -/
  hash : HashState
  /-- MessageBuffer contents BUF[0..63] (R22). -/
  buf : Block
  /-- MessageBuffer fill level BUF_LEN, 6 bits (R23). -/
  bufLen : Fin 64
  /-- BitLength BITLEN (R24). -/
  bitLen : Counter
  /-- The model fault mark FAULT and its reason (R33). -/
  fault : Option Fault
  /-- The model refusal mark REFUSED and its reason (R33). -/
  refused : Option Refusal
  /-- The command stream CMDQ, first byte first (R34). -/
  cmdq : List Byte
  /-- The response stream RSPQ, oldest byte first (R34). -/
  rspq : List Byte
  /-- The working variables a..h, transient (R27); written by COMPRESS and reset only (logs 7, 8 and 23). -/
  work : Working
  /-- The message schedule W[0..63], transient (R28); written as `work` is. -/
  sched : Schedule
  /-- The round counter t, transient (R29); written as `work` is. -/
  round : Fin 64
  /-- The number of free values drawn so far: the model's own field (log 5). -/
  draws : Nat
  deriving DecidableEq, Repr

/-- The machine right after reset (10_state.md R39). PHASE, the marks and the streams are the spec's; every other
field is "unspecified" there and zero here (DESIGN CHOICE, logs 3, 4 and 5). "A model must not assume that H = IV
after reset" (70_reset_and_hazards.md R231). -/
def State.reset : State where
  phase := .uninit
  hash := Vector.replicate 8 0
  buf := Vector.replicate 64 0
  bufLen := 0
  bitLen := 0
  fault := none
  refused := none
  cmdq := []
  rspq := []
  work := ⟨0, 0, 0, 0, 0, 0, 0, 0⟩
  sched := Vector.replicate 64 0
  round := 0
  draws := 0

end Sys2Proof.Machine
end

