-- ==== Sys2Proof/Machine/Flags.lean ====
section
/-! DEFINITION. The core's only status: the numeric PHASE, the status byte of a response, and the lifecycle check
of a command. It has no flags or condition codes (10_state.md R36). -/

namespace Sys2Proof.Machine

/-- The 2-bit value of PHASE (10_state.md R25). -/
def Phase.code : Phase → BitVec 2
  | .uninit => 0
  | .init => 1
  | .updating => 2
  | .finalized => 3

/-- The status byte OK of a response (30_encoding.md R78). -/
def statusOk : Byte := 0x00

/-- The status byte INVALID_STATE of a response, `InvalidStateError` (30_encoding.md R78, 60_exceptions.md R200). -/
def statusInvalidState : Byte := 0x01

/-- What the lifecycle check of UPDATE and FINAL says (60_exceptions.md R205, items 4 to 6). -/
inductive Admission where
  /-- PHASE = UNINIT: the fault F_UNINIT (R202). -/
  | uninitFault
  /-- PHASE = FINALIZED: InvalidStateError (R200). -/
  | invalidState
  /-- The command executes normally. -/
  | runs
  deriving DecidableEq, Repr

/-- The lifecycle check of UPDATE and FINAL (60_exceptions.md R205). INIT is legal in every phase and has none
(44_digest_engine.md R181). -/
def admission : Phase → Admission
  | .uninit => .uninitFault
  | .init => .runs
  | .updating => .runs
  | .finalized => .invalidState

end Sys2Proof.Machine
end

