-- ==== Sys2Proof/Machine/Padding.lean ====
section
/-! DEFINITION. PaddingFinalizer (43_padding_finalizer.md R160 to R165). -/

namespace Sys2Proof.Machine

/-- PAD(tail, BL): one or two 64-byte blocks, as byte sequences in order (43_padding_finalizer.md R160 to R162). -/
def pad (tail : List Byte) (bl : Counter) : List (List Byte) :=
  if tail.length + 1 ≤ 56 then
    [tail ++ [0x80] ++ zeroBytes (55 - tail.length) ++ be64Bytes bl]
  else
    [tail ++ [0x80] ++ zeroBytes (63 - tail.length), zeroBytes 56 ++ be64Bytes bl]

/-- The blocks PAD hands to COMPRESS, in list order (43_padding_finalizer.md R164). -/
def padBlocks (tail : List Byte) (bl : Counter) : List Block := (pad tail bl).map blockOfBytes

end Sys2Proof.Machine
end

