-- ==== Sys2Proof/Machine/Ops.lean ====
section
/-! DEFINITION. The operations the meanings share: access to BUF, the streams, the four outcomes of a command
(00_scope.md R12), and one COMPRESS of the state. -/

namespace Sys2Proof.Machine

/-- `MemRead(j, n)`: the bytes BUF[j..j+n-1] (00_scope.md R11). -/
def State.memRead (s : State) (j n : Nat) : List Byte := (s.buf.toList.drop j).take n

/-- `MemWrite(j, 1, v)`: BUF[j] <- v (00_scope.md R11). The index is in range (20_memory.md R50). -/
def State.memWrite (s : State) (j : Fin 64) (v : Byte) : State := { s with buf := s.buf.set j v }

/-- The buffered bytes BUF[0..BUF_LEN-1], the only meaningful ones (10_state.md R22): the tail, when FINAL runs. -/
def State.live (s : State) : List Byte := s.memRead 0 s.bufLen

/-- Step 1 of a command step: CMDQ <- rest (44_digest_engine.md R180). -/
def State.consume (s : State) (rest : List Byte) : State := { s with cmdq := rest }

/-- `respond(r)`: append `r` to the response stream (00_scope.md R12). -/
def State.respond (s : State) (r : List Byte) : State := { s with rspq := s.rspq ++ r }

/-- `raise InvalidStateError`, the only error the core takes: the command completes, writes no core state, and
responds with the single status byte 0x01 (00_scope.md R12, 60_exceptions.md R200, R201). There is no trap entry:
"no outcome saves state, changes a mode, switches a stack or transfers control" (R207); and no return from one
(R208): the core goes on to the next frame. The transient registers keep their values (DESIGN CHOICE, log 23). -/
def State.raiseInvalidState (s : State) : State := s.respond [statusInvalidState]

/-- The FAULT mark is set with its reason, and nothing else is written (60_exceptions.md R202). -/
def State.markFault (s : State) (f : Fault) : State := { s with fault := some f }

/-- The REFUSED mark is set with its reason, and nothing else is written (60_exceptions.md R203). -/
def State.markRefused (s : State) (r : Refusal) : State := { s with refused := some r }

/-- The refusal a reserved word is given (60_exceptions.md R203). -/
def refusalOf : ReservedReason → Refusal
  | .opcode => .reservedOpcode
  | .operand => .reservedOperand

/-- `H <- COMPRESS(H, blk)`. The transient registers a..h, W and t are written by it and hold unspecified values
once it ends (10_state.md R27 to R29, R32; logs 5 and 7). Between two runs they keep those values (log 23). -/
def State.compressBlock (s : State) (blk : Block) : State :=
  { s with
    hash := compress s.hash blk
    work := Config.freeWorking s.draws
    sched := Config.freeSchedule s.draws
    round := Config.freeRound s.draws
    draws := s.draws + 1 }

/-- "BUF[0..63] unspecified from here" (44_digest_engine.md R183, D14; log 6). -/
def State.forgetBuf (s : State) : State :=
  { s with buf := Config.freeBlock s.draws, draws := s.draws + 1 }

/-- The lifecycle check UPDATE and FINAL make before they write any state, and what follows from it
(44_digest_engine.md R182, R183; 60_exceptions.md R205). -/
def lifecycleChecked (s : State) (run : State → State) : Host.Outcome State Fault Refusal :=
  match admission s.phase with
  | .uninitFault => .fault .uninit
  | .invalidState => .next s.raiseInvalidState
  | .runs => .next (run s)

end Sys2Proof.Machine
end

