-- ==== Sys2Proof/Machine/BlockBuffer.lean ====
section
/-! DEFINITION. BlockBuffer: the incremental block buffer and the 64-byte block detector (41_block_buffer.md R100
to R106), internal micro-operations of UPDATE. -/

namespace Sys2Proof.Machine

/-- BLOCK_FULL: compress BUF[0..63] and set the fill level to 0; the bytes of BUF keep their values
(41_block_buffer.md R101). -/
def State.blockFull (s : State) : State := { s.compressBlock s.buf with bufLen := 0 }

/-- APPEND_BYTE(x): BUF[BUF_LEN] <- x, BUF_LEN <- BUF_LEN + 1, and BLOCK_FULL when that reaches 64
(41_block_buffer.md R100). The instant at which BUF_LEN is 64 is the second branch; the register never holds it. -/
def State.appendByte (s : State) (x : Byte) : State :=
  let s' := s.memWrite s.bufLen x
  if h : s.bufLen.val + 1 < 64 then { s' with bufLen := ⟨s.bufLen.val + 1, h⟩ } else s'.blockFull

/-- APPEND(data, n): APPEND_BYTE for each byte, in message order (41_block_buffer.md R102). -/
def State.append (s : State) (data : List Byte) : State := data.foldl State.appendByte s

end Sys2Proof.Machine
end

