-- ==== Sys2Proof/Machine/DigestEngine.lean ====
section
/-! DEFINITION. DigestEngine: the meanings of INIT, UPDATE and FINAL (44_digest_engine.md R181 to R183). The frame
is already out of CMDQ when a meaning runs (R180 step 1). -/

namespace Sys2Proof.Machine

/-- INIT (44_digest_engine.md R181): legal in every phase. It runs no COMPRESS, so a..h, W and t, which the spec leaves
unspecified between commands, keep their values (DESIGN CHOICE, log 23). -/
def execInit (s : State) : Host.Outcome State Fault Refusal :=
  .next (State.respond
    { s with hash := iv, buf := Vector.replicate 64 0x00, bufLen := 0, bitLen := 0, phase := .init }
    [statusOk])

/-- The bits LEN payload bytes count for: 8 * LEN, which is below 2^27, so it does not wrap by itself
(44_digest_engine.md R182). -/
def payloadBits (len : BitVec 24) : Counter := BitVec.ofNat 64 (8 * len.toNat)

/-- UPDATE when it executes normally: append, count, PHASE <- UPDATING, respond OK (44_digest_engine.md R182). Where no
block fills, a..h, W and t keep their values (DESIGN CHOICE, log 23). -/
def State.update (len : BitVec 24) (data : List Byte) (s : State) : State :=
  let s := s.append data
  State.respond { s with bitLen := s.bitLen + payloadBits len, phase := .updating } [statusOk]

/-- UPDATE LEN, data (44_digest_engine.md R182). -/
def execUpdate (len : BitVec 24) (data : List Byte) (s : State) : Host.Outcome State Fault Refusal :=
  lifecycleChecked s (State.update len data)

/-- FINAL when it executes normally: compress the padding blocks in order, BUF_LEN <- 0, BUF unspecified,
PHASE <- FINALIZED, respond OK and the digest (44_digest_engine.md R183, 43_padding_finalizer.md R164). -/
def State.finalize (s : State) : State :=
  let s := (padBlocks s.live s.bitLen).foldl State.compressBlock s
  let s := { s.forgetBuf with bufLen := 0, phase := .finalized }
  s.respond (statusOk :: digest s.hash)

/-- FINAL (44_digest_engine.md R183). -/
def execFinal (s : State) : Host.Outcome State Fault Refusal :=
  lifecycleChecked s State.finalize

/-- How many times a command runs COMPRESS, where it executes normally: "the work a command does depends only on
its opcode, LEN and BUF_LEN on entry" (70_reset_and_hazards.md R239). -/
def compressCount (i : Instr) (bufLen : Nat) : Nat :=
  match i with
  | .init => 0
  | .update len _ => (bufLen + len.toNat) / 64
  | .final => if bufLen ≤ 55 then 1 else 2

/-- The length of a command's response, which the host tells from the command and the status byte
(30_encoding.md R79). -/
def responseLength (i : Instr) (status : Byte) : Nat :=
  match i with
  | .init => 1
  | .update _ _ => 1
  | .final => if status = statusOk then 33 else 1

end Sys2Proof.Machine
end

