-- ==== Sys2Proof/Machine/Dispatch.lean ====
section
/-! DEFINITION. One arm per command of spec/opcode_table.json. -/

namespace Sys2Proof.Machine

-- 44_digest_engine.md R180 step 2: the command's rule runs.
def exec (i : Instr) (s : State) : Host.Outcome State Fault Refusal :=
  match i with
  | .init => Sys2Proof.Machine.execInit s
  | .update len data => Sys2Proof.Machine.execUpdate len data s
  | .final => Sys2Proof.Machine.execFinal s

end Sys2Proof.Machine
end

