-- ==== Sys2Proof/Machine/Step.lean ====
section
/-! DEFINITION. One step of the core: one whole command frame (44_digest_engine.md R180), with the order of checks
of 60_exceptions.md R205. -/

namespace Sys2Proof.Machine

/-- One step. A set mark gives no further step (60_exceptions.md R205 item 1, R214): the step answers the recorded
stop again. A reserved word is refused (item 2). An incomplete frame leaves the core waiting, its state unchanged
(item 3, 70_reset_and_hazards.md R237; log 2). Otherwise the frame leaves CMDQ and its command runs (R180). -/
def step (s : State) : Host.Outcome State Fault Refusal :=
  match s.fault, s.refused with
  | some f, _ => .fault f
  | none, some r => .refused r
  | none, none =>
    match decode s.cmdq with
    | .reserved reason => .refused (refusalOf reason)
    | .incomplete => .next s
    | .frame i rest => exec i (s.consume rest)

/-- The state with the frame whose bits are `w` (in the table's numbering) placed at the head of CMDQ, which is
where the core reads its next frame (log 9). -/
def State.withFetchWord (s : State) (nbits w : Nat) : State :=
  { s with cmdq := tableBytes nbits w ++ s.cmdq }

end Sys2Proof.Machine
end

