-- ==== Sys2Proof/Machine/Assembler.lean ====
section
/-! DEFINITION. Pseudo-instructions and the assembler's text (30_encoding.md R81, R82). The core never sees either:
they say which frames a host sends. -/

namespace Sys2Proof.Machine

/-- The UPDATE frame that carries `data`; well-formed when `data` has at most 2^24 - 1 bytes. -/
def updateFrame (data : List Byte) : Instr := .update (BitVec.ofNat 24 data.length) data

/-- `data` cut into pieces of `k` bytes, the last one shorter if `k` does not divide the length (k >= 1). -/
def chunksOf (k : Nat) (data : List Byte) : List (List Byte) :=
  (List.range ((data.length + k - 1) / k)).map fun j => (data.drop (k * j)).take k

/-- `UPDATE_CHUNKED <k>, <bytes>` (30_encoding.md R82). -/
def updateChunked (k : Nat) (data : List Byte) : List Instr := (chunksOf k data).map updateFrame

/-- The largest LEN, 2^24 - 1 (30_encoding.md R73). -/
def maxLen : Nat := 16777215

/-- `UPDATE_LONG <n>, <bytes>`: every frame but the last carries 16 777 215 bytes; for n = 0 the single frame
`UPDATE 0` (30_encoding.md R82). -/
def updateLong (data : List Byte) : List Instr :=
  if data.isEmpty then [updateFrame []] else updateChunked maxLen data

/-- `HASH <bytes>`: INIT, UPDATE_LONG, FINAL (30_encoding.md R82). -/
def hashProgram (data : List Byte) : List Instr := .init :: (updateLong data ++ [.final])

/-- The value of a digit, decimal or hexadecimal. -/
def digitValue (c : Char) : Option Nat :=
  let n := c.toNat
  if 48 ≤ n ∧ n ≤ 57 then some (n - 48)
  else if 97 ≤ n ∧ n ≤ 102 then some (n - 87)
  else if 65 ≤ n ∧ n ≤ 70 then some (n - 55)
  else none

/-- The digits below `base` at the front of a text, and the text after them. -/
def digits (base : Nat) : List Char → List Nat × List Char
  | [] => ([], [])
  | c :: cs =>
    match digitValue c with
    | some d => if d < base then (d :: (digits base cs).1, (digits base cs).2) else ([], c :: cs)
    | none => ([], c :: cs)

/-- A count in the given base: at least one digit. -/
def numberIn (base : Nat) (cs : List Char) : Option (Nat × List Char) :=
  let r := digits base cs
  if r.1.isEmpty then none else some (r.1.foldl (fun n d => base * n + d) 0, r.2)

/-- "a decimal or `0x` hexadecimal count" (30_encoding.md R81). -/
def number : List Char → Option (Nat × List Char)
  | '0' :: 'x' :: cs => numberIn 16 cs
  | cs => numberIn 10 cs

/-- The double quote. -/
def quoteChar : Char := Char.ofNat 34

/-- The characters up to the next double quote, and the text after it. -/
def untilQuote : List Char → Option (List Char × List Char)
  | [] => none
  | c :: cs => if c = quoteChar then some ([], cs) else (untilQuote cs).map fun r => (c :: r.1, r.2)

/-- The bytes of an ASCII string. -/
def asciiBytes : List Char → Option (List Byte)
  | [] => some []
  | c :: cs => if c.toNat < 128 then (asciiBytes cs).map fun r => BitVec.ofNat 8 c.toNat :: r else none

/-- The bytes of a hex string, two digits a byte. -/
def hexBytes : List Char → Option (List Byte)
  | [] => some []
  | [_] => none
  | c :: d :: cs =>
    match digitValue c, digitValue d, hexBytes cs with
    | some x, some y, some r => some (BitVec.ofNat 8 (16 * x + y) :: r)
    | _, _, _ => none

/-- "either a quoted ASCII string or a hex string" (30_encoding.md R81). -/
def bytesLiteral : List Char → Option (List Byte × List Char)
  | [] => none
  | c :: cs =>
    if c = quoteChar then (untilQuote cs).bind fun r => (asciiBytes r.1).map fun b => (b, r.2)
    else
      match c, cs with
      | 'x', q :: cs' =>
        if q = quoteChar then (untilQuote cs').bind fun r => (hexBytes r.1).map fun b => (b, r.2) else none
      | _, _ => none

/-- The text without its leading spaces and tabs. -/
def skipSpaces : List Char → List Char
  | [] => []
  | c :: cs => if c = ' ' ∨ c = '\t' then skipSpaces cs else c :: cs

/-- Nothing but a comment may stand here: "Comments start with `;`" (30_encoding.md R81). -/
def lineEnds (cs : List Char) : Bool :=
  match skipSpaces cs with
  | [] => true
  | c :: _ => c = ';'

/-- `, <bytes>` and the end of the line. -/
def commaBytes (cs : List Char) : Option (List Byte) :=
  match skipSpaces cs with
  | ',' :: cs' => (bytesLiteral (skipSpaces cs')).bind fun r => if lineEnds r.2 then some r.1 else none
  | _ => none

/-- `<n>` and, unless `n` is 0 and they are omitted, `, <bytes>`, to the end of the line. -/
def countedBytes (cs : List Char) : Option (Nat × List Byte) :=
  (number (skipSpaces cs)).bind fun r =>
    if r.1 = 0 ∧ lineEnds r.2 then some (0, []) else (commaBytes r.2).map fun b => (r.1, b)

/-- The letters and underscores at the front of a text, and the text after them. -/
def leadingName : List Char → List Char × List Char
  | [] => ([], [])
  | c :: cs =>
    if (65 ≤ c.toNat ∧ c.toNat ≤ 90) ∨ c = '_' then (c :: (leadingName cs).1, (leadingName cs).2) else ([], c :: cs)

/-- The frames the operands of a mnemonic stand for; none where the line is ill-formed. R81 says that UPDATE's count must
be the number of its bytes; that an UPDATE_LONG line whose count is not is ill-formed too is the model's choice
(DESIGN CHOICE, log 20). -/
def assembleOperands (name : List Char) (cs : List Char) : Option (List Instr) :=
  if name = ['I', 'N', 'I', 'T'] then if lineEnds cs then some [.init] else none
  else if name = ['F', 'I', 'N', 'A', 'L'] then if lineEnds cs then some [.final] else none
  else if name = ['U', 'P', 'D', 'A', 'T', 'E'] then
    (countedBytes cs).bind fun r => if r.2.length = r.1 ∧ r.1 ≤ maxLen then some [updateFrame r.2] else none
  else if name = ['U', 'P', 'D', 'A', 'T', 'E', '_', 'L', 'O', 'N', 'G'] then
    (countedBytes cs).bind fun r => if r.2.length = r.1 then some (updateLong r.2) else none
  else if name = ['U', 'P', 'D', 'A', 'T', 'E', '_', 'C', 'H', 'U', 'N', 'K', 'E', 'D'] then
    (number (skipSpaces cs)).bind fun r => (commaBytes r.2).bind fun b =>
      if 1 ≤ r.1 ∧ (r.1 ≤ maxLen ∨ b.length ≤ maxLen) then some (updateChunked r.1 b) else none
  else if name = ['H', 'A', 'S', 'H'] then
    (bytesLiteral (skipSpaces cs)).bind fun r => if lineEnds r.2 then some (hashProgram r.1) else none
  else none

/-- One line of assembler text: "One frame per line", or a pseudo-instruction, or nothing but a comment
(30_encoding.md R81, R82); none where the line is ill-formed (log 20). -/
def assembleLine (cs : List Char) : Option (List Instr) :=
  if lineEnds cs then some []
  else
    let r := leadingName (skipSpaces cs)
    assembleOperands r.1 r.2

/-- A whole text, one line each. -/
def assemble : List (List Char) → Option (List Instr)
  | [] => some []
  | l :: ls => (assembleLine l).bind fun is => (assemble ls).map fun js => is ++ js

/-- "The assembler emits the command word big-endian and then the bytes" (30_encoding.md R81). -/
def assembleBytes (lines : List (List Char)) : Option (List Byte) := (assemble lines).map encodeAll

end Sys2Proof.Machine
end

