-- ==== Sys2Proof/Machine/HostPort.lean ====
section
/-! DEFINITION. The host's side of one instance: what it may do between two core steps, the step with the marks it
leaves, and the observation of a run (00_scope.md R13; 70_reset_and_hazards.md R230 to R240). -/

namespace Sys2Proof.Machine

/-- `k` steps with no host action in between, stopping at the first fault or refusal; it is the host's
`Host.Core.run` of this machine (`runSteps_eq_core_run`). -/
def runSteps : Nat → State → Host.Outcome State Fault Refusal
  | 0, s => .next s
  | k + 1, s =>
    match step s with
    | .next t => runSteps k t
    | .fault f => .fault f
    | .refused r => .refused r

/-- One step of the core with the state it leaves when it stops. `step` answers a stop without a state; here the
mark is recorded: F_UNINIT consumes the frame and sets FAULT (60_exceptions.md R202), a refusal sets REFUSED and
writes nothing else (R203), and a marked core stays as it is (R214). Log 1. -/
def State.advance (s : State) : State :=
  match s.fault, s.refused with
  | some _, _ => s
  | none, some _ => s
  | none, none =>
    match decode s.cmdq with
    | .reserved reason => s.markRefused (refusalOf reason)
    | .incomplete => s
    | .frame i rest =>
      match exec i (s.consume rest) with
      | .next t => t
      | .fault f => (s.consume rest).markFault f
      | .refused r => (s.consume rest).markRefused r

/-- The host appends bytes to CMDQ (10_state.md R34). -/
def State.hostAppend (s : State) (bs : List Byte) : State := { s with cmdq := s.cmdq ++ bs }

/-- The host takes up to `n` bytes from the front of RSPQ (10_state.md R34); the bytes it gets are
`s.rspq.take n`. -/
def State.hostTake (s : State) (n : Nat) : State := { s with rspq := s.rspq.drop n }

/-- The reset event (70_reset_and_hazards.md R230): PHASE <- UNINIT, both streams emptied (R232, log 15), H, BUF,
BUF_LEN, BITLEN and the transient registers left unspecified (10_state.md R39, log 8). FAULT and REFUSED are not
cleared (60_exceptions.md R214). -/
def State.hostReset (s : State) : State :=
  { s with
    phase := .uninit
    hash := Config.freeHash s.draws
    buf := Config.freeBlock s.draws
    bufLen := Config.freeLen s.draws
    bitLen := Config.freeCounter s.draws
    cmdq := []
    rspq := []
    work := Config.freeWorking s.draws
    sched := Config.freeSchedule s.draws
    round := Config.freeRound s.draws
    draws := s.draws + 1 }

/-- What happens next to one instance: the core takes its step, or the host acts between two steps
(00_scope.md R13, 70_reset_and_hazards.md R240). -/
inductive Event where
  /-- The core takes one step, or waits. -/
  | core
  /-- The host appends bytes to CMDQ. -/
  | append (bs : List Byte)
  /-- The host takes up to `n` bytes from RSPQ. -/
  | take (n : Nat)
  /-- The host asserts reset. -/
  | reset
  deriving DecidableEq, Repr

/-- The effect of one event. -/
def State.react (s : State) : Event → State
  | .core => s.advance
  | .append bs => s.hostAppend bs
  | .take n => s.hostTake n
  | .reset => s.hostReset

/-- The effect of a sequence of events. -/
def State.reactAll (s : State) (es : List Event) : State := es.foldl State.react s

/-- The bytes the core's step appends to RSPQ. -/
def State.emitted (s : State) : List Byte := s.advance.rspq.drop s.rspq.length

/-- "The host's observation is the sequence of bytes the core appended to RSPQ since the last reset"
(70_reset_and_hazards.md R234): `seen` is what was observed before the events. -/
def observation (s : State) (seen : List Byte) : List Event → List Byte
  | [] => seen
  | .core :: es => observation s.advance (seen ++ s.emitted) es
  | .append bs :: es => observation (s.hostAppend bs) seen es
  | .take n :: es => observation (s.hostTake n) seen es
  | .reset :: es => observation s.hostReset [] es

/-- The run of an instance is at an end: CMDQ is empty and no mark is set (70_reset_and_hazards.md R234; the last
response is appended within the step that consumes the last frame, 20_memory.md R61). -/
def State.atEnd (s : State) : Bool := s.cmdq.isEmpty && s.fault.isNone && s.refused.isNone

end Sys2Proof.Machine
end

