-- ==== Sys2Proof/Machine/Platform.lean ====
section
/-! DEFINITION. A platform of N_CONTEXTS independent core instances (60_exceptions.md R211, 10_state.md R38,
20_memory.md R65). -/

namespace Sys2Proof.Machine

/-- `n` core instances, each with its own state, streams and marks (60_exceptions.md R211). `n` is the OPEN
parameter N_CONTEXTS; the spec asks `1 ≤ n` (log 14). -/
structure Platform (n : Nat) where
  cores : Vector State n
  deriving DecidableEq, Repr

/-- The platform with every instance just after its own reset (60_exceptions.md R211). -/
def Platform.start (n : Nat) : Platform n := ⟨Vector.replicate n State.reset⟩

/-- An event of instance `i` acts on that instance alone (20_memory.md R65). -/
def Platform.react {n : Nat} (p : Platform n) (i : Fin n) (e : Event) : Platform n :=
  ⟨p.cores.set i (p.cores[i].react e)⟩

/-- A sequence of events of named instances. -/
def Platform.reactAll {n : Nat} (p : Platform n) (es : List (Fin n × Event)) : Platform n :=
  es.foldl (fun p e => p.react e.1 e.2) p

end Sys2Proof.Machine
end

