-- ==== Sys2Proof/Machine/Reference.lean ====
section
/-! DEFINITION. The digest of a whole message, written without a buffer or a lifecycle: what the incremental core
must return (43_padding_finalizer.md R165, 42_compression_core.md R139, 44_digest_engine.md R189). -/

namespace Sys2Proof.Machine

/-- The padding of a message of `n` bytes: 0x80, `(55 - L) mod 64` zero bytes with L = n mod 64, and the 8-byte bit
length, which is 8n mod 2^64 (43_padding_finalizer.md R165, 44_digest_engine.md R189). -/
def messagePadding (n : Nat) : List Byte :=
  [0x80] ++ zeroBytes ((55 + 64 - n % 64) % 64) ++ be64Bytes (BitVec.ofNat 64 (8 * n))

/-- The digest of a message: H_0 = IV, H_k = COMPRESS(H_{k-1}, block_k) over the padded message, serialized
(42_compression_core.md R139). -/
def messageDigest (m : List Byte) : List Byte :=
  digest (compressAll iv (blocksOf (m ++ messagePadding m.length)))

end Sys2Proof.Machine
end

