-- ==== Sys2Proof/Safety.lean ====
section
/-! DEFINITION. What counts as a safe run, in the terms the statements use: no mark set, the counters in step with
each other, and states no response can tell apart. -/

namespace Sys2Proof.Machine

/-- Neither mark is set: "a claim about the core must assume that no mark is set" (60_exceptions.md R214). -/
abbrev State.Unmarked (s : State) : Prop := s.fault = none ∧ s.refused = none

/-- UPDATE and FINAL execute normally (60_exceptions.md R205 item 6). -/
abbrev State.Ready (s : State) : Prop := s.phase = .init ∨ s.phase = .updating

/-- A run of `k` steps that meets no stop. -/
def SafeRun (k : Nat) (s : State) : Prop := ∃ t : State, runSteps k s = .next t

/-- What holds of the counters between commands (10_state.md R37), phase by phase; nothing is said in UNINIT, where
every register but PHASE is unspecified (R39). In FINALIZED the fill level is 0 and BITLEN keeps the message's
length, so the two are no longer in step (log 13). -/
structure State.Coherent (s : State) : Prop where
  /-- After INIT and before any UPDATE the context is the one INIT made (44_digest_engine.md R181). -/
  fresh : s.phase = .init → s.hash = iv ∧ s.buf = Vector.replicate 64 0 ∧ s.bufLen = 0 ∧ s.bitLen = 0
  /-- BITLEN mod 512 = 8 * BUF_LEN. -/
  inStep : s.Ready → s.bitLen.toNat % 512 = 8 * s.bufLen.val
  /-- If PHASE = FINALIZED, then BUF_LEN = 0. -/
  consumed : s.phase = .finalized → s.bufLen.val = 0

/-- Two states that agree on everything the spec lets a later command or response depend on: PHASE, the marks and
the streams, and, where UPDATE and FINAL run, H, BITLEN and the buffered bytes. The stale bytes of BUF
(10_state.md R22), the transient registers (R32), every register in UNINIT (R39), and all of H, BUF, BUF_LEN and
BITLEN in FINALIZED may differ. -/
structure Indistinguishable (s t : State) : Prop where
  phase : s.phase = t.phase
  fault : s.fault = t.fault
  refused : s.refused = t.refused
  cmdq : s.cmdq = t.cmdq
  rspq : s.rspq = t.rspq
  hash : s.Ready → s.hash = t.hash
  bitLen : s.Ready → s.bitLen = t.bitLen
  live : s.Ready → s.live = t.live

/-- Two outcomes no response can tell apart. -/
def SameOutcome : Host.Outcome State Fault Refusal → Host.Outcome State Fault Refusal → Prop
  | .next s, .next t => Indistinguishable s t
  | .fault f, .fault g => f = g
  | .refused r, .refused q => r = q
  | _, _ => False

end Sys2Proof.Machine
end

