-- ==== Sys2Proof/Certificates/Slice0/Obligations.lean ====
section
/-! DEFINITION. The statements for the provers. Numbers in hexadecimal and widths are the spec's. -/

open Sys2Proof Sys2Proof.Machine

/-! Reset, phases, marks -/

/-- The values 10_state.md R39 gives for reset: PHASE 0 (UNINIT), both marks clear, both streams empty. The other
registers' reset values are the model's choice (logs 3 to 5), and nothing is said of them. -/
def Obligations.ResetHoldsSpecValues : Prop :=
  State.reset.phase = .uninit ∧ State.reset.phase.code = 0#2 ∧ State.reset.Unmarked ∧
    State.reset.cmdq = [] ∧ State.reset.rspq = []

/-- 70_reset_and_hazards.md R230, R232: the reset event sets PHASE to UNINIT, empties both streams, leaves H, BUF,
BUF_LEN and BITLEN at unspecified values, does not clear the marks, and an unmarked core then waits; the next byte the
host appends is the first byte of a new frame. The model's choices: the unspecified values are the opaque free values of
this draw (log 8), the flush is RESET_FLUSHES_STREAMS = true (log 15), and the wait is a next state equal to the state
before it (log 2). -/
def Obligations.ResetEventClearsPhaseAndStreams : Prop :=
  ∀ (s : State) (bs : List Byte),
    s.hostReset.phase = .uninit ∧ s.hostReset.cmdq = [] ∧ s.hostReset.rspq = [] ∧
    s.hostReset.hash = Config.freeHash s.draws ∧ s.hostReset.buf = Config.freeBlock s.draws ∧
    s.hostReset.bufLen = Config.freeLen s.draws ∧ s.hostReset.bitLen = Config.freeCounter s.draws ∧
    s.hostReset.fault = s.fault ∧ s.hostReset.refused = s.refused ∧
    (s.hostReset.hostAppend bs).cmdq = bs ∧
    (s.Unmarked → step s.hostReset = .next s.hostReset)

/-- 44_digest_engine.md R185: the outcome, the response and the next phase of every command in every phase, and reset
from any phase. -/
def Obligations.PhaseTransitionTable : Prop :=
  (∀ s : State, ∃ t, exec .init s = .next t ∧ t.phase = .init ∧ t.rspq = s.rspq ++ [0x00]) ∧
  (∀ (s : State) (i : Instr), i ≠ .init → s.phase = .uninit → exec i s = .fault .uninit) ∧
  (∀ (s : State) (len : BitVec 24) (data : List Byte), s.Ready →
    ∃ t, exec (.update len data) s = .next t ∧ t.phase = .updating ∧ t.rspq = s.rspq ++ [0x00]) ∧
  (∀ s : State, s.Ready →
    ∃ t, exec .final s = .next t ∧ t.phase = .finalized ∧ (digest t.hash).length = 32 ∧
      t.rspq = s.rspq ++ 0x00 :: digest t.hash) ∧
  (∀ (s : State) (i : Instr), i ≠ .init → s.phase = .finalized →
    ∃ t, exec i s = .next t ∧ t.phase = .finalized ∧ t.rspq = s.rspq ++ [0x01]) ∧
  (∀ s : State, s.hostReset.phase = .uninit)

/-- 10_state.md R25: INIT and UPDATING accept exactly the same commands with the same effects. The equality of the whole
outcomes also compares what the spec leaves unspecified (BUF after FINAL, log 6; a..h, W and t after a COMPRESS, log 7):
that these agree is the model's choice, since equal draws give equal free values (log 5). -/
def Obligations.InitAndUpdatingPhasesAgree : Prop :=
  ∀ (i : Instr) (s : State), s.phase = .init → exec i s = exec i { s with phase := .updating }

/-- 60_exceptions.md R214: a set mark gives no further step and is cleared by nothing, neither a step nor a host
event nor reset, and such a run has no end. That the step answers the recorded stop again, and that `advance` leaves
the state as it is, is the model's choice (log 1): R214 says only that no further step is taken. -/
def Obligations.MarksAreSticky : Prop :=
  ∀ s : State,
    (∀ f, s.fault = some f → step s = .fault f ∧ s.advance = s ∧ s.atEnd = false ∧
      ∀ e : Event, (s.react e).fault = some f) ∧
    (∀ r, s.refused = some r → (∀ t, step s ≠ .next t) ∧ s.advance = s ∧ s.atEnd = false ∧
      ∀ e : Event, (s.react e).refused = some r)

/-! The commands -/

/-- 44_digest_engine.md R181: INIT in every phase. The equality says the frame too: CMDQ, the marks and the transient
registers are unchanged, and every byte of BUF is stored to. That the transient registers keep their values is the
model's choice (log 23). -/
def Obligations.InitResult : Prop :=
  ∀ s : State,
    exec .init s =
      .next { s with
        hash := #v[0x6a09e667, 0xbb67ae85, 0x3c6ef372, 0xa54ff53a, 0x510e527f, 0x9b05688c, 0x1f83d9ab, 0x5be0cd19]
        buf := Vector.replicate 64 0x00, bufLen := 0, bitLen := 0, phase := .init, rspq := s.rspq ++ [0x00] }

/-- 44_digest_engine.md R182: UPDATE in every phase. That the transient registers keep their values where no COMPRESS
runs, the rejected form included, is the model's choice (log 23). -/
def Obligations.UpdateResult : Prop :=
  ∀ (s : State) (len : BitVec 24) (data : List Byte), data.length = len.toNat →
    (s.phase = .uninit → exec (.update len data) s = .fault .uninit) ∧
    (s.phase = .finalized → exec (.update len data) s = .next { s with rspq := s.rspq ++ [0x01] }) ∧
    (s.Ready → exec (.update len data) s =
      .next { s.append data with
        bitLen := s.bitLen + BitVec.ofNat 64 (8 * len.toNat), phase := .updating, rspq := s.rspq ++ [0x00] })

/-- 41_block_buffer.md R104, R105: with L0 = BUF_LEN on entry and n = LEN, UPDATE compresses exactly
floor((L0 + n) / 64) blocks, which are the whole 64-byte blocks of the buffered bytes followed by the payload, in
order; the rest stays buffered and BUF_LEN = (L0 + n) mod 64. The count of the runs is said through the model's own field
`draws`: each COMPRESS draws once (log 5). -/
def Obligations.UpdateCompressesEveryFullBlock : Prop :=
  ∀ (s : State) (len : BitVec 24) (data : List Byte), data.length = len.toNat → s.Ready →
    ∃ t, exec (.update len data) s = .next t ∧
      t.hash = ((List.range ((s.bufLen + len.toNat) / 64)).map fun j =>
        blockOfBytes (((s.live ++ data).drop (64 * j)).take 64)).foldl compress s.hash ∧
      t.live = (s.live ++ data).drop (64 * ((s.bufLen + len.toNat) / 64)) ∧
      t.bufLen.val = (s.bufLen + len.toNat) % 64 ∧
      t.draws = s.draws + (s.bufLen + len.toNat) / 64

/-- 41_block_buffer.md R100, R101: one byte. Below index 63 it is stored and counted; at index 63 it completes the
block, BUF is compressed as it stands and keeps its bytes, and BUF_LEN is 0. -/
def Obligations.UpdateOfOneByte : Prop :=
  ∀ (s : State) (x : Byte), s.Ready →
    ∃ t, exec (.update 1 [x]) s = .next t ∧ t.buf = s.buf.set s.bufLen x ∧
      (s.bufLen.val < 63 → t.bufLen.val = s.bufLen.val + 1 ∧ t.hash = s.hash) ∧
      (s.bufLen.val = 63 → t.bufLen.val = 0 ∧ t.hash = compress s.hash (s.buf.set 63 x))

/-- 41_block_buffer.md R103: LEN = 0 changes nothing of BUF, BUF_LEN and H; UPDATE still sets PHASE and responds. That
the transient registers keep their values is the model's choice (log 23). -/
def Obligations.UpdateOfNoBytes : Prop :=
  ∀ s : State, s.Ready →
    exec (.update 0 []) s = .next { s with phase := .updating, rspq := s.rspq ++ [0x00] }

/-- The frame of UPDATE (41_block_buffer.md R100 to R102). Byte k of the payload is stored at BUF[(L0 + k) mod 64],
the later of two stores to one index wins, every other byte of BUF reads as before, and with no full block H and
the transient registers are unchanged. That the transient registers keep their values is the model's choice (log 23),
and `draws` is the model's own field (log 5). -/
def Obligations.UpdateFrame : Prop :=
  ∀ (s t : State) (len : BitVec 24) (data : List Byte), data.length = len.toNat → s.Ready →
    exec (.update len data) s = .next t →
    t.fault = s.fault ∧ t.refused = s.refused ∧ t.cmdq = s.cmdq ∧
    (∀ j < 64, (∀ k < data.length, (s.bufLen + k) % 64 ≠ j) → t.memRead j 1 = s.memRead j 1) ∧
    (∀ (k : Nat) (hk : k < data.length), data.length ≤ k + 64 → t.memRead ((s.bufLen + k) % 64) 1 = [data[k]]) ∧
    (s.bufLen.val + data.length < 64 →
      t.hash = s.hash ∧ t.work = s.work ∧ t.sched = s.sched ∧ t.round = s.round ∧ t.draws = s.draws)

/-- 44_digest_engine.md R183: FINAL in every phase. BUF is unspecified afterwards, so nothing is said of it; the
transient registers are unspecified too (10_state.md R32). Every other field of the spec is named. That the rejected
form keeps the transient registers is the model's choice (log 23). -/
def Obligations.FinalResult : Prop :=
  ∀ s : State,
    (s.phase = .uninit → exec .final s = .fault .uninit) ∧
    (s.phase = .finalized → exec .final s = .next { s with rspq := s.rspq ++ [0x01] }) ∧
    (s.Ready → ∃ t, exec .final s = .next t ∧
      t.hash = ((pad s.live s.bitLen).map blockOfBytes).foldl compress s.hash ∧
      t.bufLen = 0 ∧ t.bitLen = s.bitLen ∧ t.phase = .finalized ∧
      t.fault = s.fault ∧ t.refused = s.refused ∧ t.cmdq = s.cmdq ∧
      t.rspq = s.rspq ++ 0x00 :: digest t.hash)

/-- 60_exceptions.md R200, R201: UPDATE and FINAL in FINALIZED change no core state and respond 01; their only other
effect is that the frame, an UPDATE payload included, leaves CMDQ. INIT never raises the error. That the transient
registers keep their values is the model's choice (log 23). -/
def Obligations.FinalizedRejectsUpdateAndFinal : Prop :=
  (∀ (i : Instr) (s : State), i ≠ .init → s.phase = .finalized →
    exec i s = .next { s with rspq := s.rspq ++ [0x01] }) ∧
  (∀ (i : Instr) (s : State) (rest : List Byte), i.wf = true → i ≠ .init → s.Unmarked → s.phase = .finalized →
    s.cmdq = encode i ++ rest → step s = .next { s with cmdq := rest, rspq := s.rspq ++ [0x01] }) ∧
  (∀ s t : State, exec .init s = .next t → t.rspq ≠ s.rspq ++ [0x01])

/-- 44_digest_engine.md R188: a rejected UPDATE has its LEN payload bytes removed from CMDQ, so what follows is the
next frame. That the transient registers keep their values is the model's choice (log 23). -/
def Obligations.RejectedUpdateConsumesPayload : Prop :=
  ∀ (s : State) (len : BitVec 24) (data rest : List Byte), data.length = len.toNat → s.Unmarked →
    s.phase = .finalized → s.cmdq = encode (.update len data) ++ rest →
    step s = .next { s with cmdq := rest, rspq := s.rspq ++ [0x01] }

/-- 60_exceptions.md R202: UPDATE or FINAL in UNINIT is the fault F_UNINIT: the frame is consumed, FAULT is set with
its reason, nothing else is written, there is no response and no further step. That `step` carries no state at the fault,
that `advance` leaves the state, and that the next step answers the recorded fault again is the model's choice (log 1). -/
def Obligations.UseBeforeInitFaults : Prop :=
  ∀ (s : State) (i : Instr) (rest : List Byte), i.wf = true → i ≠ .init → s.Unmarked → s.phase = .uninit →
    s.cmdq = encode i ++ rest →
    step s = .fault .uninit ∧
    s.advance = { s with cmdq := rest, fault := some .uninit } ∧
    step s.advance = .fault .uninit

/-- What a completing command may write, over all three (10_state.md R20, R24; 20_memory.md R59): the marks and CMDQ
never, RSPQ only by appending, BITLEN as R24 says. -/
def Obligations.CommandsKeepMarksAndQueue : Prop :=
  ∀ (i : Instr) (s t : State), exec i s = .next t →
    t.fault = s.fault ∧ t.refused = s.refused ∧ t.cmdq = s.cmdq ∧ (∃ r, r ≠ [] ∧ t.rspq = s.rspq ++ r) ∧
    t.bitLen = (match i with
      | .init => 0
      | .update len _ => if s.phase = .finalized then s.bitLen else s.bitLen + BitVec.ofNat 64 (8 * len.toNat)
      | .final => s.bitLen)

/-- 10_state.md R26: while PHASE = FINALIZED no command other than INIT writes H. -/
def Obligations.DigestIsImmutableUntilInit : Prop :=
  ∀ s t : State, s.phase = .finalized → step s = .next t →
    t.hash = s.hash ∨ ∃ rest, s.cmdq = [0x01, 0x00, 0x00, 0x00] ++ rest

/-- 30_encoding.md R78, R79: the response of every command that completes, and none from a stop. -/
def Obligations.ResponseOfEveryCommand : Prop :=
  (∀ (i : Instr) (s t : State), exec i s = .next t →
    ∃ status r, t.rspq = s.rspq ++ status :: r ∧ (status :: r).length = responseLength i status ∧
      (status = 0x00 ∨ status = 0x01) ∧
      (status = 0x01 ↔ s.phase = .finalized ∧ i ≠ .init) ∧
      (status = 0x00 → i = .final → r = digest t.hash) ∧
      (status = 0x01 ∨ i ≠ .final → r = [])) ∧
  (∀ s : State, (∀ t, step s ≠ .next t) → s.advance.rspq = s.rspq)

/-- How many times a command runs COMPRESS (70_reset_and_hazards.md R239; 41_block_buffer.md R106;
43_padding_finalizer.md R163): it depends on the opcode, LEN and BUF_LEN only. Each run draws once (log 5), and FINAL
draws once more for BUF. -/
def Obligations.WorkDependsOnLengthsOnly : Prop :=
  ∀ (i : Instr) (s t : State), i.wf = true → (i ≠ .init → s.Ready) → exec i s = .next t →
    t.draws = s.draws + compressCount i s.bufLen + (match i with | .init => 0 | .update _ _ => 0 | .final => 1)

/-! The step and the command stream -/

/-- 44_digest_engine.md R180: the step of an unmarked core runs the decoded frame on the state with the frame gone
from CMDQ, refuses a reserved word, and waits for an incomplete frame. That the wait is a next state equal to the state
before it is the model's reading (log 2): R180 says that the core has no step. -/
def Obligations.StepRunsTheDecodedFrame : Prop :=
  ∀ s : State, s.Unmarked →
    (∀ i rest, decode s.cmdq = .frame i rest → i.wf = true ∧ step s = exec i { s with cmdq := rest }) ∧
    (∀ reason, decode s.cmdq = .reserved reason → step s = .refused (refusalOf reason)) ∧
    (decode s.cmdq = .incomplete → step s = .next s)

/-- 60_exceptions.md R205: the first condition that holds decides the outcome. That item 3 ("no step yet") is a next
state equal to the state before it is the model's reading (log 2), and that a rejected command keeps the transient
registers is its choice (log 23). -/
def Obligations.OrderOfChecks : Prop :=
  ∀ s : State,
    (¬ s.Unmarked → ∀ t, step s ≠ .next t) ∧
    (s.Unmarked → ∀ reason, decode s.cmdq = .reserved reason → step s = .refused (refusalOf reason)) ∧
    (s.Unmarked → decode s.cmdq = .incomplete → step s = .next s) ∧
    (s.Unmarked → ∀ i rest, decode s.cmdq = .frame i rest →
      (i ≠ .init → s.phase = .uninit → step s = .fault .uninit) ∧
      (i ≠ .init → s.phase = .finalized → step s = .next { s with cmdq := rest, rspq := s.rspq ++ [0x01] }) ∧
      (i = .init ∨ s.Ready → ∃ t r, step s = .next t ∧ exec i { s with cmdq := rest } = .next t ∧
        t.rspq = s.rspq ++ 0x00 :: r))

/-- Nothing else stops the core (60_exceptions.md R202, R203, R205): it stops exactly when a mark is set, the word at the
head of CMDQ is reserved, or UPDATE or FINAL comes in UNINIT. An incomplete frame counts as going on, since the model
takes the wait for a next state (log 2). -/
def Obligations.OnlyTheseStopTheCore : Prop :=
  ∀ s : State, (∀ t, step s ≠ .next t) ↔
    ¬ s.Unmarked ∨ (∃ reason, decode s.cmdq = .reserved reason) ∨
      (∃ i rest, decode s.cmdq = .frame i rest ∧ i ≠ .init ∧ s.phase = .uninit)

/-- A command stream of whole well-formed frames, the first of them INIT after a reset, never stops the core, however
long it runs (70_reset_and_hazards.md R233, R237, R238). Steps past the last frame are waiting steps, which the model
takes for next states (log 2). -/
def Obligations.WellFormedStreamsRunSafely : Prop :=
  ∀ (is : List Instr) (s : State) (k : Nat), (∀ i ∈ is, i.wf = true) → s.Unmarked →
    (s.phase = .uninit → is ≠ [] → is.head? = some .init) → s.cmdq = encodeAll is → SafeRun k s

/-- 30_encoding.md R75, R76 and 60_exceptions.md R203, on the four bytes of the word: a reserved word is refused,
REFUSED is set with its reason, and nothing else is written; no UPDATE word is refused. The model's choices: the word's
own four bytes stay in CMDQ (log 12), and the next step answers the recorded refusal again (log 1). -/
def Obligations.ReservedWordsAreRefused : Prop :=
  ∀ (s : State) (b0 b1 b2 b3 : Byte) (q : List Byte), s.Unmarked → s.cmdq = b0 :: b1 :: b2 :: b3 :: q →
    (b0 = 0x00 ∨ 0x04 ≤ b0.toNat →
      step s = .refused .reservedOpcode ∧ s.advance = { s with refused := some .reservedOpcode } ∧
      step s.advance = .refused .reservedOpcode) ∧
    (b0 = 0x01 ∨ b0 = 0x03 → b1 ≠ 0 ∨ b2 ≠ 0 ∨ b3 ≠ 0 →
      step s = .refused .reservedOperand ∧ s.advance = { s with refused := some .reservedOperand } ∧
      step s.advance = .refused .reservedOperand) ∧
    (b0 = 0x02 → ∀ r, step s ≠ .refused r)

/-- 70_reset_and_hazards.md R237: after an UPDATE word with LEN = n the core waits, unchanged, until n payload bytes
are present, and takes whatever bytes the host sends next as payload. That the wait is a next state equal to the state
before it is the model's reading (log 2): R237 says that the core has no step. -/
def Obligations.IncompletePayloadWaits : Prop :=
  ∀ (s : State) (len : BitVec 24) (q : List Byte), s.Unmarked →
    s.cmdq = [0x02, len.extractLsb' 16 8, len.extractLsb' 8 8, len.extractLsb' 0 8] ++ q → q.length < len.toNat →
    step s = .next s ∧ s.advance = s ∧
    ∀ bs data rest : List Byte, q ++ bs = data ++ rest → data.length = len.toNat →
      step (s.hostAppend bs) = exec (.update len data) { s with cmdq := rest }

/-- 30_encoding.md R77: `decode` on every byte sequence, by its first four bytes. -/
def Obligations.DecodeOfEveryByteSequence : Prop :=
  (∀ q : List Byte, q.length < 4 → decode q = .incomplete) ∧
  ∀ (b0 b1 b2 b3 : Byte) (q : List Byte),
    let opd := b1.toNat * 65536 + b2.toNat * 256 + b3.toNat
    decode (b0 :: b1 :: b2 :: b3 :: q) =
      if b0 = 0x01 then (if opd = 0 then .frame .init q else .reserved .operand)
      else if b0 = 0x03 then (if opd = 0 then .frame .final q else .reserved .operand)
      else if b0 = 0x02 then
        (if q.length < opd then .incomplete
         else .frame (.update (BitVec.ofNat 24 opd) (q.take opd)) (q.drop opd))
      else .reserved .opcode

/-- Decode and encode agree on every well-formed frame, whatever follows it (30_encoding.md R70 to R74, R77). -/
def Obligations.DecodeOfEncodeIsTheFrame : Prop :=
  ∀ (i : Instr) (rest : List Byte), i.wf = true → decode (encode i ++ rest) = .frame i rest

/-- Every decoded frame is well-formed and is the encoding of what it decodes to: no two byte sequences spell one
frame (30_encoding.md R70 to R77). -/
def Obligations.DecodedFrameIsItsEncoding : Prop :=
  ∀ (q rest : List Byte) (i : Instr), decode q = .frame i rest → i.wf = true ∧ q = encode i ++ rest

/-- 30_encoding.md R72: the encoded words and the frame lengths. -/
def Obligations.EncodedFrames : Prop :=
  encode .init = [0x01, 0x00, 0x00, 0x00] ∧ encode .final = [0x03, 0x00, 0x00, 0x00] ∧
  ∀ (len : BitVec 24) (data : List Byte),
    encode (.update len data) = [0x02, len.extractLsb' 16 8, len.extractLsb' 8 8, len.extractLsb' 0 8] ++ data ∧
    (data.length = len.toNat → (encode (.update len data)).length = 4 + len.toNat)

/-- A few words of the table, written out from 30_encoding.md R72 and 95_test_vectors.md V-E3 to V-E8; payload bytes
count on from bit 32 (log 9). A sanity statement. -/
def Obligations.TableWordsDecode : Prop :=
  decodeTableWord 32 0x01000000 = some .init ∧ decodeTableWord 32 0x03000000 = some .final ∧
  decodeTableWord 32 0x02000000 = some (.update 0 []) ∧
  decodeTableWord 56 0x63626102000003 = some (.update 3 [0x61, 0x62, 0x63]) ∧
  decodeTableWord 32 0x01000001 = none ∧ decodeTableWord 32 0x03800000 = none ∧
  decodeTableWord 32 0x00000000 = none ∧ decodeTableWord 32 0x04000000 = none

/-- 20_memory.md R61: the frames of CMDQ run strictly in order, one a step, each seeing every effect of the one
before it, and their responses stand in RSPQ in the same order. -/
def Obligations.FramesRunInOrder : Prop :=
  ∀ (is : List Instr) (s : State) (rest : List Byte), (∀ i ∈ is, i.wf = true) → s.Unmarked →
    (s.phase = .uninit → is.head? = some .init) → s.cmdq = encodeAll is ++ rest → is ≠ [] →
    ∃ (σ : Nat → State) (resp : Nat → List Byte), σ 0 = s ∧
      (∀ (k : Nat) (hk : k < is.length),
        exec is[k] { σ k with cmdq := encodeAll (is.drop (k + 1)) ++ rest } = .next (σ (k + 1)) ∧
        (σ (k + 1)).rspq = (σ k).rspq ++ resp k ∧ resp k ≠ []) ∧
      runSteps is.length s = .next (σ is.length) ∧ (σ is.length).cmdq = rest ∧
      (σ is.length).rspq = s.rspq ++ ((List.range is.length).map resp).flatten

/-! CompressionCore -/

/-- 00_scope.md R9, bit by bit. -/
def Obligations.RotateAndShiftBits : Prop :=
  ∀ (x : Word) (n i : Nat), n < 32 → i < 32 →
    (rotr x n).getLsbD i = x.getLsbD ((i + n) % 32) ∧
    (shr x n).getLsbD i = (decide (i + n < 32) && x.getLsbD (i + n))

/-- 42_compression_core.md R121, R122: each result bit of Ch is y's bit where x's bit is 1 and z's bit where it is 0;
each result bit of Maj is the majority of the three. -/
def Obligations.ChooseAndMajorityBits : Prop :=
  ∀ (x y z : Word), ch x y z = (x &&& y) ^^^ (~~~x &&& z) ∧ maj x y z = (x &&& y) ^^^ (x &&& z) ^^^ (y &&& z) ∧
    ∀ i < 32, (ch x y z).getLsbD i = (if x.getLsbD i then y.getLsbD i else z.getLsbD i) ∧
      (maj x y z).getLsbD i =
        decide (2 ≤ (x.getLsbD i).toNat + (y.getLsbD i).toNat + (z.getLsbD i).toNat)

/-- 42_compression_core.md R123 to R126: the rotation and shift amounts of the four sigma functions, against Lean's own
rotation. -/
def Obligations.SigmaFunctions : Prop :=
  ∀ x : Word,
    bigSigma0 x = x.rotateRight 2 ^^^ x.rotateRight 13 ^^^ x.rotateRight 22 ∧
    bigSigma1 x = x.rotateRight 6 ^^^ x.rotateRight 11 ^^^ x.rotateRight 25 ∧
    smallSigma0 x = x.rotateRight 7 ^^^ x.rotateRight 18 ^^^ x >>> 3 ∧
    smallSigma1 x = x.rotateRight 17 ^^^ x.rotateRight 19 ^^^ x >>> 10

/-- 42_compression_core.md R127: K[t] is the first 32 bits of the fractional part of the cube root of the (t+1)-th
prime: with c the integer part, c.K[t] cubed is at most the prime and the next number up is more. -/
def Obligations.RoundConstantsAreCubeRoots : Prop :=
  roundConstants.length = 64 ∧
  ∀ t < 64, let p := ((List.range 312).filter Nat.Prime).getD t 0
    let k := (roundConstants.getD t 0).toNat
    ∃ c < 7, (c * 2 ^ 32 + k) ^ 3 ≤ p * 2 ^ 96 ∧ p * 2 ^ 96 < (c * 2 ^ 32 + k + 1) ^ 3

/-- 42_compression_core.md R128: IV[i] is the first 32 bits of the fractional part of the square root of the (i+1)-th
prime. -/
def Obligations.InitialValuesAreSquareRoots : Prop :=
  ∀ i : Fin 8, let p := ([2, 3, 5, 7, 11, 13, 17, 19] : List Nat).getD i 0
    ∃ c < 5, (c * 2 ^ 32 + iv[i].toNat) ^ 2 ≤ p * 2 ^ 64 ∧ p * 2 ^ 64 < (c * 2 ^ 32 + iv[i].toNat + 1) ^ 2

/-- 42_compression_core.md R129, R130: all 64 words of the message schedule. -/
def Obligations.ScheduleWords : Prop :=
  ∀ blk : Block, (schedule blk).length = 64 ∧
    (∀ (t : Nat) (h : t < 16), (schedule blk).getD t 0 =
      be32 blk[4 * t] blk[4 * t + 1] blk[4 * t + 2] blk[4 * t + 3]) ∧
    (∀ t, 16 ≤ t → t < 64 → (schedule blk).getD t 0 =
      smallSigma1 ((schedule blk).getD (t - 2) 0) + (schedule blk).getD (t - 7) 0 +
        smallSigma0 ((schedule blk).getD (t - 15) 0) + (schedule blk).getD (t - 16) 0)

/-- 42_compression_core.md R131: the sliding-window scheduler gives the same W[t] for every t, and so the same COMPRESS
result, whatever its window holds at the start. -/
def Obligations.WindowedSchedulerAgrees : Prop :=
  ∀ (wq : List Word) (hin : HashState) (blk : Block), wq.length = 16 →
    (∀ t < 64, windowWord (messageWords blk)
        ((List.range t).foldl (windowRound (messageWords blk)) (load hin, wq)).2 t = (schedule blk).getD t 0) ∧
      compressWindowed wq hin blk = compress hin blk

/-- 42_compression_core.md R133: one round. -/
def Obligations.RoundEquations : Prop :=
  ∀ (v : Working) (k w : Word),
    let t1 := v.h + bigSigma1 v.e + ch v.e v.f v.g + k + w
    let t2 := bigSigma0 v.a + maj v.a v.b v.c
    roundStep v k w = ⟨t1 + t2, v.a, v.b, v.c, v.d + t1, v.e, v.f, v.g⟩

/-- 42_compression_core.md R120, R132, R134, R135: COMPRESS loads the working variables from Hin, runs ROUND(0) to
ROUND(63) once each in that order, round t with K[t] and W[t], and adds the result into Hin word by word. -/
def Obligations.CompressRunsSixtyFourRounds : Prop :=
  ∀ (hin : HashState) (blk : Block), ∃ v : Nat → Working,
    v 0 = ⟨hin[0], hin[1], hin[2], hin[3], hin[4], hin[5], hin[6], hin[7]⟩ ∧
    (∀ t < 64, v (t + 1) = roundStep (v t) (roundConstants.getD t 0) ((schedule blk).getD t 0)) ∧
    compress hin blk = #v[hin[0] + (v 64).a, hin[1] + (v 64).b, hin[2] + (v 64).c, hin[3] + (v 64).d,
      hin[4] + (v 64).e, hin[5] + (v 64).f, hin[6] + (v 64).g, hin[7] + (v 64).h]

/-! Padding and digest -/

/-- 43_padding_finalizer.md R160 to R163 and 20_memory.md R53, byte by byte: which path a tail of L bytes takes, and
what every byte of every block holds. -/
def Obligations.PaddingBlocks : Prop :=
  ∀ (tail : List Byte) (bl : Counter), tail.length < 64 →
    (tail.length ≤ 55 → ∃ b : Block, padBlocks tail bl = [b] ∧
      ∀ (j : Nat) (hj : j < 64), b[j] =
        if j < tail.length then tail.getD j 0 else if j = tail.length then 0x80
        else if j < 56 then 0x00 else bl.extractLsb' (8 * (63 - j)) 8) ∧
    (56 ≤ tail.length → ∃ b d : Block, padBlocks tail bl = [b, d] ∧
      (∀ (j : Nat) (hj : j < 64), b[j] =
        if j < tail.length then tail.getD j 0 else if j = tail.length then 0x80 else 0x00) ∧
      (∀ (j : Nat) (hj : j < 64), d[j] = if j < 56 then 0x00 else bl.extractLsb' (8 * (63 - j)) 8))

/-- 43_padding_finalizer.md R165: the message followed by its padding is a whole number of blocks, the padding is 0x80,
(55 - L) mod 64 zero bytes and the 8-byte length, and the blocks FINAL compresses are those of the tail followed by
that padding. -/
def Obligations.PaddedMessageIsWholeBlocks : Prop :=
  ∀ m : List Byte, (m ++ messagePadding m.length).length % 64 = 0 ∧
    (∃ z : Nat, z < 64 ∧ (z + m.length % 64) % 64 = 55 ∧
      messagePadding m.length = [0x80] ++ List.replicate z 0x00 ++ be64Bytes (BitVec.ofNat 64 (8 * m.length))) ∧
    ∀ tail : List Byte, tail.length = m.length % 64 →
      padBlocks tail (BitVec.ofNat 64 (8 * m.length)) = blocksOf (tail ++ messagePadding m.length)

/-- 44_digest_engine.md R184, 20_memory.md R52: digest byte 4i+k is H[i][31-8k : 24-8k]. -/
def Obligations.DigestBytes : Prop :=
  ∀ h : HashState, (digest h).length = 32 ∧
    ∀ (i k : Nat) (hi : i < 8), k < 4 → (digest h)[4 * i + k]? = some (h[i].extractLsb' (24 - 8 * k) 8)

/-! Messages -/

/-- 30_encoding.md R82: what the pseudo-instructions expand to. -/
def Obligations.PseudoInstructionExpansions : Prop :=
  (∀ data : List Byte, ∃ ps : List (List Byte), updateLong data = ps.map updateFrame ∧ ps.flatten = data ∧
    ps.length = (if data = [] then 1 else (data.length + 16777214) / 16777215) ∧
    (∀ p ∈ ps.dropLast, p.length = 16777215) ∧ ∀ i ∈ updateLong data, i.wf = true) ∧
  (∀ (k : Nat) (data : List Byte), 1 ≤ k →
    ∃ ps : List (List Byte), updateChunked k data = ps.map updateFrame ∧ ps.flatten = data ∧
      (∀ p ∈ ps.dropLast, p.length = k) ∧ (∀ p ∈ ps, 1 ≤ p.length ∧ p.length ≤ k) ∧
      (k ≤ 16777215 → ∀ i ∈ updateChunked k data, i.wf = true)) ∧
  (∀ data : List Byte, hashProgram data = [.init] ++ updateLong data ++ [.final])

/-- 44_digest_engine.md R186: two splits of one byte sequence into UPDATE frames, from the same state, leave the same H,
buffered bytes, BUF_LEN and BITLEN, and the following FINAL returns the same digest. -/
def Obligations.IncrementalConsistency : Prop :=
  ∀ (s : State) (ps qs : List (List Byte)), s.Unmarked → s.Ready → ps.flatten = qs.flatten →
    (∀ p ∈ ps, p.length ≤ 16777215) → (∀ q ∈ qs, q.length ≤ 16777215) →
    ∃ t u t' u' : State,
      runSteps ps.length { s with cmdq := encodeAll (ps.map updateFrame) } = .next t ∧
      runSteps qs.length { s with cmdq := encodeAll (qs.map updateFrame) } = .next u ∧
      t.hash = u.hash ∧ t.live = u.live ∧ t.bufLen = u.bufLen ∧ t.bitLen = u.bitLen ∧
      exec .final t = .next t' ∧ exec .final u = .next u' ∧
      ∃ d, t'.rspq = t.rspq ++ d ∧ u'.rspq = u.rspq ++ d

/-- 10_state.md R37 while PHASE is INIT or UPDATING, with `total` the payload bytes since the last INIT. (In FINALIZED
R37's last item holds instead: log 13.) -/
def Obligations.CountersFollowTheTotal : Prop :=
  ∀ (s : State) (ps : List (List Byte)), s.Unmarked → (∀ p ∈ ps, p.length ≤ 16777215) →
    s.cmdq = encodeAll (.init :: ps.map updateFrame) →
    ∃ t : State, runSteps (ps.length + 1) s = .next t ∧
      t.bufLen.val = ps.flatten.length % 64 ∧ t.bitLen = BitVec.ofNat 64 (8 * ps.flatten.length) ∧
      t.bitLen.toNat % 512 = 8 * t.bufLen.val ∧ t.Ready

/-- 44_digest_engine.md R187, R189, for every split: INIT, UPDATE frames carrying the message in any pieces, FINAL, from
any unmarked state whatever it held before: every command answers OK and FINAL returns the digest of the message. -/
def Obligations.AnySplitReturnsTheMessageDigest : Prop :=
  ∀ (s : State) (ps : List (List Byte)) (rest : List Byte), s.Unmarked → (∀ p ∈ ps, p.length ≤ 16777215) →
    s.cmdq = encodeAll (.init :: (ps.map updateFrame ++ [.final])) ++ rest →
    ∃ t : State, runSteps (ps.length + 2) s = .next t ∧ t.cmdq = rest ∧ t.phase = .finalized ∧
      t.rspq = s.rspq ++ List.replicate (ps.length + 1) 0x00 ++ 0x00 :: messageDigest ps.flatten

/-- 44_digest_engine.md R189: the response to `INIT; UPDATE_LONG len(M), M; FINAL`, for a message of any length, and the
value BITLEN holds, 8 * len(M) mod 2^64, which is the length the padding encodes (`messagePadding`). -/
def Obligations.HashReturnsTheMessageDigest : Prop :=
  ∀ (s : State) (m : List Byte), s.Unmarked → s.cmdq = encodeAll (hashProgram m) →
    ∃ t : State, runSteps (hashProgram m).length s = .next t ∧ t.cmdq = [] ∧ t.phase = .finalized ∧
      t.atEnd = true ∧ t.bitLen = BitVec.ofNat 64 (8 * m.length) ∧
      t.rspq = s.rspq ++ List.replicate ((hashProgram m).length - 1) 0x00 ++ 0x00 :: messageDigest m

/-! Invariants and isolation -/

/-- The counters are coherent at reset. -/
def Obligations.ResetIsCoherent : Prop := State.reset.Coherent

/-- Every step keeps the counters coherent (10_state.md R37). -/
def Obligations.StepKeepsCoherence : Prop :=
  ∀ s t : State, s.Coherent → step s = .next t → t.Coherent

/-- So does every event of an instance: a step that stops, a host append or take, and reset (10_state.md R37, R39). -/
def Obligations.EveryEventKeepsCoherence : Prop :=
  ∀ (s : State) (e : Event), s.Coherent → (s.react e).Coherent

/-- 10_state.md R22, R32, R39: no step depends on a stale byte, a transient register or an unspecified value: from
states that agree on the rest, the outcomes agree on the rest. -/
def Obligations.StepIgnoresUnspecifiedState : Prop :=
  ∀ s t : State, Indistinguishable s t → SameOutcome (step s) (step t)

/-- 10_state.md R39: "No unspecified value is ever observed": over every sequence of steps, host actions and resets, two
instances that differ in unspecified state only are observed alike. -/
def Obligations.NoUnspecifiedValueIsObserved : Prop :=
  ∀ (es : List Event) (s t : State) (seen : List Byte), Indistinguishable s t →
    observation s seen es = observation t seen es ∧ Indistinguishable (s.reactAll es) (t.reactAll es)

/-- 10_state.md R38, 20_memory.md R65: events of other instances leave an instance's whole state alone. -/
def Obligations.InstancesAreIsolated : Prop :=
  ∀ (n : Nat) (p : Platform n) (j : Fin n) (es : List (Fin n × Event)),
    (p.reactAll es).cores[j] = p.cores[j].reactAll ((es.filter fun e => e.1 = j).map fun e => e.2)

/-- 20_memory.md R65: the order in which events of two different instances happen is free. -/
def Obligations.InstancesCommute : Prop :=
  ∀ (n : Nat) (p : Platform n) (i j : Fin n) (e f : Event), i ≠ j →
    (p.react i e).react j f = (p.react j f).react i e
end

