-- ==== Sys2Proof/Laws/Bytes.lean ====
section
/-! SUPPORT. Byte order: words and their bytes, command-word fields and bytes, byte sequences and blocks. -/

namespace Sys2Proof.Machine

@[simp] theorem be32Bytes_length (w : Word) : (be32Bytes w).length = 4 := rfl

@[simp] theorem be64Bytes_length (v : Counter) : (be64Bytes v).length = 8 := rfl

@[simp] theorem zeroBytes_length (n : Nat) : (zeroBytes n).length = n := by simp [zeroBytes]

/-- Reading back the four bytes of a word gives the word. -/
theorem be32_be32Bytes (w : Word) :
    be32 (w.extractLsb' 24 8) (w.extractLsb' 16 8) (w.extractLsb' 8 8) (w.extractLsb' 0 8) = w := by
  apply BitVec.eq_of_getLsbD_eq
  intro i hi
  interval_cases i <;> simp [be32]

/-- The four bytes of the word four bytes form are those bytes. -/
theorem be32Bytes_be32 (b0 b1 b2 b3 : Byte) : be32Bytes (be32 b0 b1 b2 b3) = [b0, b1, b2, b3] := by
  simp only [be32Bytes, List.cons.injEq, and_true]
  refine ⟨?_, ?_, ?_, ?_⟩ <;>
    (apply BitVec.eq_of_getLsbD_eq; intro i hi; interval_cases i <;> simp [be32])

/-- OP is the first byte of the command word (20_memory.md R54). -/
theorem opField_be32 (b0 b1 b2 b3 : Byte) : opField (be32 b0 b1 b2 b3) = b0 := by
  apply BitVec.eq_of_getLsbD_eq
  intro i hi
  interval_cases i <;> simp [be32, opField]

/-- OPERAND is the other three bytes, the first of them most significant (20_memory.md R54). -/
theorem operandField_be32 (b0 b1 b2 b3 : Byte) : 
    operandField (be32 b0 b1 b2 b3) = b1.zeroExtend 24 <<< 16 ||| b2.zeroExtend 24 <<< 8 ||| b3.zeroExtend 24 := by
  apply BitVec.eq_of_getLsbD_eq
  intro i hi
  interval_cases i <;> simp [be32, operandField]

/-- The value of OPERAND in terms of the three bytes. -/
theorem operandField_be32_toNat (b0 b1 b2 b3 : Byte) :
    (operandField (be32 b0 b1 b2 b3)).toNat = b1.toNat * 65536 + b2.toNat * 256 + b3.toNat := by
  have h1 := b1.isLt
  have h2 := b2.isLt
  have h3 := b3.isLt
  have h : ((b1.toNat <<< 8 ||| b2.toNat) <<< 8 ||| b3.toNat) = b1.toNat * 65536 + b2.toNat * 256 + b3.toNat := by
    rw [← Nat.shiftLeft_add_eq_or_of_lt h2, ← Nat.shiftLeft_add_eq_or_of_lt h3]
    simp only [Nat.shiftLeft_eq]
    omega
  rw [operandField_be32, ← h]
  simp only [BitVec.toNat_or, BitVec.toNat_shiftLeft, BitVec.truncate_eq_setWidth, BitVec.toNat_setWidth,
    Nat.shiftLeft_or_distrib, ← Nat.shiftLeft_add]
  rw [Nat.mod_eq_of_lt (a := b1.toNat) (by omega), Nat.mod_eq_of_lt (a := b2.toNat) (by omega),
    Nat.mod_eq_of_lt (a := b3.toNat) (by omega), Nat.mod_eq_of_lt (by simp only [Nat.shiftLeft_eq]; omega),
    Nat.mod_eq_of_lt (by simp only [Nat.shiftLeft_eq]; omega)]

@[simp] theorem opField_commandWord (op : BitVec 8) (x : BitVec 24) : opField (commandWord op x) = op := by
  apply BitVec.eq_of_getLsbD_eq
  intro i hi
  interval_cases i <;> simp [opField, commandWord]

@[simp] theorem operandField_commandWord (op : BitVec 8) (x : BitVec 24) :
    operandField (commandWord op x) = x := by
  apply BitVec.eq_of_getLsbD_eq
  intro i hi
  interval_cases i <;> simp [operandField, commandWord]

/-- A word is its two fields. -/
theorem commandWord_fields (w : Word) : commandWord (opField w) (operandField w) = w := by
  apply BitVec.eq_of_getLsbD_eq
  intro i hi
  interval_cases i <;> simp [opField, operandField, commandWord]

/-- A sequence of 64 bytes and its block hold the same bytes. -/
@[simp] theorem toList_blockOfBytes {l : List Byte} (h : l.length = 64) : (blockOfBytes l).toList = l := by
  simp [blockOfBytes, h, zeroBytes, List.take_of_length_le]

/-- A block is the block of its bytes. -/
@[simp] theorem blockOfBytes_toList (b : Block) : blockOfBytes b.toList = b := by
  apply Vector.toList_inj.mp
  simp

/-- The bytes of one block of a byte sequence are 64. -/
theorem chunk_length {l : List Byte} {j : Nat} (h : j < l.length / 64) : ((l.drop (64 * j)).take 64).length = 64 := by
  simp only [List.length_take, List.length_drop]
  omega

@[simp] theorem blocksOf_length (l : List Byte) : (blocksOf l).length = l.length / 64 := by
  simp [blocksOf]

/-- Fewer than 64 bytes hold no block. -/
theorem blocksOf_short {l : List Byte} (h : l.length < 64) : blocksOf l = [] := by
  have : l.length / 64 = 0 := by omega
  simp [blocksOf, this]

/-- The first block of a sequence that has one, and the blocks of the rest. -/
theorem blocksOf_append {l : List Byte} (h : l.length = 64) (r : List Byte) :
    blocksOf (l ++ r) = blockOfBytes l :: blocksOf r := by
  have hn : (l ++ r).length / 64 = r.length / 64 + 1 := by simp [h]
  simp only [blocksOf, hn, List.range_succ_eq_map, List.map_cons, List.map_map]
  congr 1
  · congr 1
    simp [← h]
  · apply List.map_congr_left
    intro j _
    simp only [Function.comp]
    rw [show 64 * (j + 1) = l.length + 64 * j by omega, List.drop_append]
    congr 2
    simp

end Sys2Proof.Machine
end

