-- ==== Sys2Proof/Laws/State.lean ====
section
/-! SUPPORT. One lemma per field per update of the state, so that no later proof unfolds a record update. -/

namespace Sys2Proof.Machine

variable (s : State)

-- `memWrite` writes one byte of BUF.
@[simp] theorem State.memWrite_phase (j : Fin 64) (v : Byte) : (s.memWrite j v).phase = s.phase := rfl
@[simp] theorem State.memWrite_hash (j : Fin 64) (v : Byte) : (s.memWrite j v).hash = s.hash := rfl
@[simp] theorem State.memWrite_buf (j : Fin 64) (v : Byte) : (s.memWrite j v).buf = s.buf.set j v := rfl
@[simp] theorem State.memWrite_bufLen (j : Fin 64) (v : Byte) : (s.memWrite j v).bufLen = s.bufLen := rfl
@[simp] theorem State.memWrite_bitLen (j : Fin 64) (v : Byte) : (s.memWrite j v).bitLen = s.bitLen := rfl
@[simp] theorem State.memWrite_fault (j : Fin 64) (v : Byte) : (s.memWrite j v).fault = s.fault := rfl
@[simp] theorem State.memWrite_refused (j : Fin 64) (v : Byte) : (s.memWrite j v).refused = s.refused := rfl
@[simp] theorem State.memWrite_cmdq (j : Fin 64) (v : Byte) : (s.memWrite j v).cmdq = s.cmdq := rfl
@[simp] theorem State.memWrite_rspq (j : Fin 64) (v : Byte) : (s.memWrite j v).rspq = s.rspq := rfl
@[simp] theorem State.memWrite_work (j : Fin 64) (v : Byte) : (s.memWrite j v).work = s.work := rfl
@[simp] theorem State.memWrite_sched (j : Fin 64) (v : Byte) : (s.memWrite j v).sched = s.sched := rfl
@[simp] theorem State.memWrite_round (j : Fin 64) (v : Byte) : (s.memWrite j v).round = s.round := rfl
@[simp] theorem State.memWrite_draws (j : Fin 64) (v : Byte) : (s.memWrite j v).draws = s.draws := rfl

-- `consume` writes CMDQ.
@[simp] theorem State.consume_phase (q : List Byte) : (s.consume q).phase = s.phase := rfl
@[simp] theorem State.consume_hash (q : List Byte) : (s.consume q).hash = s.hash := rfl
@[simp] theorem State.consume_buf (q : List Byte) : (s.consume q).buf = s.buf := rfl
@[simp] theorem State.consume_bufLen (q : List Byte) : (s.consume q).bufLen = s.bufLen := rfl
@[simp] theorem State.consume_bitLen (q : List Byte) : (s.consume q).bitLen = s.bitLen := rfl
@[simp] theorem State.consume_fault (q : List Byte) : (s.consume q).fault = s.fault := rfl
@[simp] theorem State.consume_refused (q : List Byte) : (s.consume q).refused = s.refused := rfl
@[simp] theorem State.consume_cmdq (q : List Byte) : (s.consume q).cmdq = q := rfl
@[simp] theorem State.consume_rspq (q : List Byte) : (s.consume q).rspq = s.rspq := rfl
@[simp] theorem State.consume_work (q : List Byte) : (s.consume q).work = s.work := rfl
@[simp] theorem State.consume_sched (q : List Byte) : (s.consume q).sched = s.sched := rfl
@[simp] theorem State.consume_round (q : List Byte) : (s.consume q).round = s.round := rfl
@[simp] theorem State.consume_draws (q : List Byte) : (s.consume q).draws = s.draws := rfl

-- `respond` writes RSPQ.
@[simp] theorem State.respond_phase (r : List Byte) : (s.respond r).phase = s.phase := rfl
@[simp] theorem State.respond_hash (r : List Byte) : (s.respond r).hash = s.hash := rfl
@[simp] theorem State.respond_buf (r : List Byte) : (s.respond r).buf = s.buf := rfl
@[simp] theorem State.respond_bufLen (r : List Byte) : (s.respond r).bufLen = s.bufLen := rfl
@[simp] theorem State.respond_bitLen (r : List Byte) : (s.respond r).bitLen = s.bitLen := rfl
@[simp] theorem State.respond_fault (r : List Byte) : (s.respond r).fault = s.fault := rfl
@[simp] theorem State.respond_refused (r : List Byte) : (s.respond r).refused = s.refused := rfl
@[simp] theorem State.respond_cmdq (r : List Byte) : (s.respond r).cmdq = s.cmdq := rfl
@[simp] theorem State.respond_rspq (r : List Byte) : (s.respond r).rspq = s.rspq ++ r := rfl
@[simp] theorem State.respond_work (r : List Byte) : (s.respond r).work = s.work := rfl
@[simp] theorem State.respond_sched (r : List Byte) : (s.respond r).sched = s.sched := rfl
@[simp] theorem State.respond_round (r : List Byte) : (s.respond r).round = s.round := rfl
@[simp] theorem State.respond_draws (r : List Byte) : (s.respond r).draws = s.draws := rfl

-- `raiseInvalidState` writes RSPQ (60_exceptions.md R201).
@[simp] theorem State.raiseInvalidState_phase : (s.raiseInvalidState).phase = s.phase := rfl
@[simp] theorem State.raiseInvalidState_hash : (s.raiseInvalidState).hash = s.hash := rfl
@[simp] theorem State.raiseInvalidState_buf : (s.raiseInvalidState).buf = s.buf := rfl
@[simp] theorem State.raiseInvalidState_bufLen : (s.raiseInvalidState).bufLen = s.bufLen := rfl
@[simp] theorem State.raiseInvalidState_bitLen : (s.raiseInvalidState).bitLen = s.bitLen := rfl
@[simp] theorem State.raiseInvalidState_fault : (s.raiseInvalidState).fault = s.fault := rfl
@[simp] theorem State.raiseInvalidState_refused : (s.raiseInvalidState).refused = s.refused := rfl
@[simp] theorem State.raiseInvalidState_cmdq : (s.raiseInvalidState).cmdq = s.cmdq := rfl
@[simp] theorem State.raiseInvalidState_rspq : (s.raiseInvalidState).rspq = s.rspq ++ [statusInvalidState] := rfl
@[simp] theorem State.raiseInvalidState_work : (s.raiseInvalidState).work = s.work := rfl
@[simp] theorem State.raiseInvalidState_sched : (s.raiseInvalidState).sched = s.sched := rfl
@[simp] theorem State.raiseInvalidState_round : (s.raiseInvalidState).round = s.round := rfl
@[simp] theorem State.raiseInvalidState_draws : (s.raiseInvalidState).draws = s.draws := rfl

-- `markFault` writes FAULT.
@[simp] theorem State.markFault_phase (f : Fault) : (s.markFault f).phase = s.phase := rfl
@[simp] theorem State.markFault_hash (f : Fault) : (s.markFault f).hash = s.hash := rfl
@[simp] theorem State.markFault_buf (f : Fault) : (s.markFault f).buf = s.buf := rfl
@[simp] theorem State.markFault_bufLen (f : Fault) : (s.markFault f).bufLen = s.bufLen := rfl
@[simp] theorem State.markFault_bitLen (f : Fault) : (s.markFault f).bitLen = s.bitLen := rfl
@[simp] theorem State.markFault_fault (f : Fault) : (s.markFault f).fault = some f := rfl
@[simp] theorem State.markFault_refused (f : Fault) : (s.markFault f).refused = s.refused := rfl
@[simp] theorem State.markFault_cmdq (f : Fault) : (s.markFault f).cmdq = s.cmdq := rfl
@[simp] theorem State.markFault_rspq (f : Fault) : (s.markFault f).rspq = s.rspq := rfl
@[simp] theorem State.markFault_work (f : Fault) : (s.markFault f).work = s.work := rfl
@[simp] theorem State.markFault_sched (f : Fault) : (s.markFault f).sched = s.sched := rfl
@[simp] theorem State.markFault_round (f : Fault) : (s.markFault f).round = s.round := rfl
@[simp] theorem State.markFault_draws (f : Fault) : (s.markFault f).draws = s.draws := rfl

-- `markRefused` writes REFUSED.
@[simp] theorem State.markRefused_phase (r : Refusal) : (s.markRefused r).phase = s.phase := rfl
@[simp] theorem State.markRefused_hash (r : Refusal) : (s.markRefused r).hash = s.hash := rfl
@[simp] theorem State.markRefused_buf (r : Refusal) : (s.markRefused r).buf = s.buf := rfl
@[simp] theorem State.markRefused_bufLen (r : Refusal) : (s.markRefused r).bufLen = s.bufLen := rfl
@[simp] theorem State.markRefused_bitLen (r : Refusal) : (s.markRefused r).bitLen = s.bitLen := rfl
@[simp] theorem State.markRefused_fault (r : Refusal) : (s.markRefused r).fault = s.fault := rfl
@[simp] theorem State.markRefused_refused (r : Refusal) : (s.markRefused r).refused = some r := rfl
@[simp] theorem State.markRefused_cmdq (r : Refusal) : (s.markRefused r).cmdq = s.cmdq := rfl
@[simp] theorem State.markRefused_rspq (r : Refusal) : (s.markRefused r).rspq = s.rspq := rfl
@[simp] theorem State.markRefused_work (r : Refusal) : (s.markRefused r).work = s.work := rfl
@[simp] theorem State.markRefused_sched (r : Refusal) : (s.markRefused r).sched = s.sched := rfl
@[simp] theorem State.markRefused_round (r : Refusal) : (s.markRefused r).round = s.round := rfl
@[simp] theorem State.markRefused_draws (r : Refusal) : (s.markRefused r).draws = s.draws := rfl

-- `compressBlock` writes H and the transient registers.
@[simp] theorem State.compressBlock_phase (b : Block) : (s.compressBlock b).phase = s.phase := rfl
@[simp] theorem State.compressBlock_hash (b : Block) : (s.compressBlock b).hash = compress s.hash b := rfl
@[simp] theorem State.compressBlock_buf (b : Block) : (s.compressBlock b).buf = s.buf := rfl
@[simp] theorem State.compressBlock_bufLen (b : Block) : (s.compressBlock b).bufLen = s.bufLen := rfl
@[simp] theorem State.compressBlock_bitLen (b : Block) : (s.compressBlock b).bitLen = s.bitLen := rfl
@[simp] theorem State.compressBlock_fault (b : Block) : (s.compressBlock b).fault = s.fault := rfl
@[simp] theorem State.compressBlock_refused (b : Block) : (s.compressBlock b).refused = s.refused := rfl
@[simp] theorem State.compressBlock_cmdq (b : Block) : (s.compressBlock b).cmdq = s.cmdq := rfl
@[simp] theorem State.compressBlock_rspq (b : Block) : (s.compressBlock b).rspq = s.rspq := rfl
@[simp] theorem State.compressBlock_work (b : Block) : (s.compressBlock b).work = Config.freeWorking s.draws := rfl
@[simp] theorem State.compressBlock_sched (b : Block) : (s.compressBlock b).sched = Config.freeSchedule s.draws := rfl
@[simp] theorem State.compressBlock_round (b : Block) : (s.compressBlock b).round = Config.freeRound s.draws := rfl
@[simp] theorem State.compressBlock_draws (b : Block) : (s.compressBlock b).draws = s.draws + 1 := rfl

-- `forgetBuf` leaves BUF unspecified.
@[simp] theorem State.forgetBuf_phase : (s.forgetBuf).phase = s.phase := rfl
@[simp] theorem State.forgetBuf_hash : (s.forgetBuf).hash = s.hash := rfl
@[simp] theorem State.forgetBuf_buf : (s.forgetBuf).buf = Config.freeBlock s.draws := rfl
@[simp] theorem State.forgetBuf_bufLen : (s.forgetBuf).bufLen = s.bufLen := rfl
@[simp] theorem State.forgetBuf_bitLen : (s.forgetBuf).bitLen = s.bitLen := rfl
@[simp] theorem State.forgetBuf_fault : (s.forgetBuf).fault = s.fault := rfl
@[simp] theorem State.forgetBuf_refused : (s.forgetBuf).refused = s.refused := rfl
@[simp] theorem State.forgetBuf_cmdq : (s.forgetBuf).cmdq = s.cmdq := rfl
@[simp] theorem State.forgetBuf_rspq : (s.forgetBuf).rspq = s.rspq := rfl
@[simp] theorem State.forgetBuf_work : (s.forgetBuf).work = s.work := rfl
@[simp] theorem State.forgetBuf_sched : (s.forgetBuf).sched = s.sched := rfl
@[simp] theorem State.forgetBuf_round : (s.forgetBuf).round = s.round := rfl
@[simp] theorem State.forgetBuf_draws : (s.forgetBuf).draws = s.draws + 1 := rfl

-- `blockFull` writes H, BUF_LEN and the transient registers (41_block_buffer.md R101).
@[simp] theorem State.blockFull_phase : (s.blockFull).phase = s.phase := rfl
@[simp] theorem State.blockFull_hash : (s.blockFull).hash = compress s.hash s.buf := rfl
@[simp] theorem State.blockFull_buf : (s.blockFull).buf = s.buf := rfl
@[simp] theorem State.blockFull_bufLen : (s.blockFull).bufLen = 0 := rfl
@[simp] theorem State.blockFull_bitLen : (s.blockFull).bitLen = s.bitLen := rfl
@[simp] theorem State.blockFull_fault : (s.blockFull).fault = s.fault := rfl
@[simp] theorem State.blockFull_refused : (s.blockFull).refused = s.refused := rfl
@[simp] theorem State.blockFull_cmdq : (s.blockFull).cmdq = s.cmdq := rfl
@[simp] theorem State.blockFull_rspq : (s.blockFull).rspq = s.rspq := rfl
@[simp] theorem State.blockFull_work : (s.blockFull).work = Config.freeWorking s.draws := rfl
@[simp] theorem State.blockFull_sched : (s.blockFull).sched = Config.freeSchedule s.draws := rfl
@[simp] theorem State.blockFull_round : (s.blockFull).round = Config.freeRound s.draws := rfl
@[simp] theorem State.blockFull_draws : (s.blockFull).draws = s.draws + 1 := rfl

-- `hostAppend` writes CMDQ.
@[simp] theorem State.hostAppend_phase (bs : List Byte) : (s.hostAppend bs).phase = s.phase := rfl
@[simp] theorem State.hostAppend_hash (bs : List Byte) : (s.hostAppend bs).hash = s.hash := rfl
@[simp] theorem State.hostAppend_buf (bs : List Byte) : (s.hostAppend bs).buf = s.buf := rfl
@[simp] theorem State.hostAppend_bufLen (bs : List Byte) : (s.hostAppend bs).bufLen = s.bufLen := rfl
@[simp] theorem State.hostAppend_bitLen (bs : List Byte) : (s.hostAppend bs).bitLen = s.bitLen := rfl
@[simp] theorem State.hostAppend_fault (bs : List Byte) : (s.hostAppend bs).fault = s.fault := rfl
@[simp] theorem State.hostAppend_refused (bs : List Byte) : (s.hostAppend bs).refused = s.refused := rfl
@[simp] theorem State.hostAppend_cmdq (bs : List Byte) : (s.hostAppend bs).cmdq = s.cmdq ++ bs := rfl
@[simp] theorem State.hostAppend_rspq (bs : List Byte) : (s.hostAppend bs).rspq = s.rspq := rfl
@[simp] theorem State.hostAppend_work (bs : List Byte) : (s.hostAppend bs).work = s.work := rfl
@[simp] theorem State.hostAppend_sched (bs : List Byte) : (s.hostAppend bs).sched = s.sched := rfl
@[simp] theorem State.hostAppend_round (bs : List Byte) : (s.hostAppend bs).round = s.round := rfl
@[simp] theorem State.hostAppend_draws (bs : List Byte) : (s.hostAppend bs).draws = s.draws := rfl

-- `hostTake` writes RSPQ.
@[simp] theorem State.hostTake_phase (n : Nat) : (s.hostTake n).phase = s.phase := rfl
@[simp] theorem State.hostTake_hash (n : Nat) : (s.hostTake n).hash = s.hash := rfl
@[simp] theorem State.hostTake_buf (n : Nat) : (s.hostTake n).buf = s.buf := rfl
@[simp] theorem State.hostTake_bufLen (n : Nat) : (s.hostTake n).bufLen = s.bufLen := rfl
@[simp] theorem State.hostTake_bitLen (n : Nat) : (s.hostTake n).bitLen = s.bitLen := rfl
@[simp] theorem State.hostTake_fault (n : Nat) : (s.hostTake n).fault = s.fault := rfl
@[simp] theorem State.hostTake_refused (n : Nat) : (s.hostTake n).refused = s.refused := rfl
@[simp] theorem State.hostTake_cmdq (n : Nat) : (s.hostTake n).cmdq = s.cmdq := rfl
@[simp] theorem State.hostTake_rspq (n : Nat) : (s.hostTake n).rspq = s.rspq.drop n := rfl
@[simp] theorem State.hostTake_work (n : Nat) : (s.hostTake n).work = s.work := rfl
@[simp] theorem State.hostTake_sched (n : Nat) : (s.hostTake n).sched = s.sched := rfl
@[simp] theorem State.hostTake_round (n : Nat) : (s.hostTake n).round = s.round := rfl
@[simp] theorem State.hostTake_draws (n : Nat) : (s.hostTake n).draws = s.draws := rfl

-- `hostReset` writes everything but the marks (70_reset_and_hazards.md R230).
@[simp] theorem State.hostReset_phase : (s.hostReset).phase = .uninit := rfl
@[simp] theorem State.hostReset_hash : (s.hostReset).hash = Config.freeHash s.draws := rfl
@[simp] theorem State.hostReset_buf : (s.hostReset).buf = Config.freeBlock s.draws := rfl
@[simp] theorem State.hostReset_bufLen : (s.hostReset).bufLen = Config.freeLen s.draws := rfl
@[simp] theorem State.hostReset_bitLen : (s.hostReset).bitLen = Config.freeCounter s.draws := rfl
@[simp] theorem State.hostReset_fault : (s.hostReset).fault = s.fault := rfl
@[simp] theorem State.hostReset_refused : (s.hostReset).refused = s.refused := rfl
@[simp] theorem State.hostReset_cmdq : (s.hostReset).cmdq = [] := rfl
@[simp] theorem State.hostReset_rspq : (s.hostReset).rspq = [] := rfl
@[simp] theorem State.hostReset_work : (s.hostReset).work = Config.freeWorking s.draws := rfl
@[simp] theorem State.hostReset_sched : (s.hostReset).sched = Config.freeSchedule s.draws := rfl
@[simp] theorem State.hostReset_round : (s.hostReset).round = Config.freeRound s.draws := rfl
@[simp] theorem State.hostReset_draws : (s.hostReset).draws = s.draws + 1 := rfl

end Sys2Proof.Machine
end

