-- ==== Sys2Proof/Laws/BlockBuffer.lean ====
section
/-! SUPPORT. Everything APPEND_BYTE and APPEND can do (41_block_buffer.md R100 to R105). -/

namespace Sys2Proof.Machine

@[simp] theorem State.live_length (s : State) : s.live.length = s.bufLen := by
  simp [State.live, State.memRead]

/-- The fields APPEND never writes: PHASE, BITLEN, the marks and the streams (41_block_buffer.md R100, R101). -/
structure State.SameOutsideBuffer (s t : State) : Prop where
  phase : t.phase = s.phase
  bitLen : t.bitLen = s.bitLen
  fault : t.fault = s.fault
  refused : t.refused = s.refused
  cmdq : t.cmdq = s.cmdq
  rspq : t.rspq = s.rspq

theorem State.SameOutsideBuffer.trans {s t u : State} (h : s.SameOutsideBuffer t) (k : t.SameOutsideBuffer u) :
    s.SameOutsideBuffer u :=
  ⟨k.phase.trans h.phase, k.bitLen.trans h.bitLen, k.fault.trans h.fault, k.refused.trans h.refused,
    k.cmdq.trans h.cmdq, k.rspq.trans h.rspq⟩

theorem State.appendByte_sameOutside (s : State) (x : Byte) : s.SameOutsideBuffer (s.appendByte x) := by
  unfold State.appendByte
  split <;> constructor <;> simp

/-- APPEND_BYTE below the last index: the byte joins the buffered ones, nothing is compressed. -/
theorem State.appendByte_room {s : State} (h : s.bufLen.val + 1 < 64) (x : Byte) :
    s.appendByte x = { s with buf := s.buf.set s.bufLen x, bufLen := ⟨s.bufLen.val + 1, h⟩ } := by
  simp [State.appendByte, h, State.memWrite]

/-- APPEND_BYTE at index 63: BLOCK_FULL. -/
theorem State.appendByte_full {s : State} (h : s.bufLen.val = 63) (x : Byte) :
    s.appendByte x = (s.memWrite s.bufLen x).blockFull := by
  simp [State.appendByte, h]

/-- The buffered bytes after APPEND_BYTE below the last index. -/
theorem State.live_appendByte_room {s : State} (h : s.bufLen.val + 1 < 64) (x : Byte) :
    (s.appendByte x).live = s.live ++ [x] := by
  simp only [State.appendByte_room h, State.live, State.memRead, List.drop_zero]
  rw [List.take_succ_eq_append_getElem (by simp)]
  simp [Vector.toList_set, List.take_set_of_le]

/-- The block APPEND_BYTE hands to COMPRESS at index 63. -/
theorem State.full_block {s : State} (h : s.bufLen.val = 63) (x : Byte) :
    s.buf.set s.bufLen x = blockOfBytes (s.live ++ [x]) := by
  apply Vector.toList_inj.mp
  rw [toList_blockOfBytes (by simp [h])]
  have hl : s.buf.toList.length = 64 := by simp
  apply List.ext_getElem
  · simp [h]
  · intro n h1 h2
    have hn : n < 64 := by simpa using h1
    by_cases h3 : n = 63
    · subst h3
      simp [State.live, State.memRead, h]
    · have hm : n < 63 := by omega
      have h63 : n ≠ 63 := h3
      simp [State.live, State.memRead, h, hm, Ne.symm h63]

/-- Everything APPEND does to the hash state and to the buffered bytes: with `b` the bytes buffered on entry
followed by the payload, every whole block of `b` is compressed in order and the rest of `b` is buffered
(41_block_buffer.md R104, R105). The draws count the COMPRESS runs. -/
structure State.Appended (s : State) (b : List Byte) (t : State) : Prop where
  outside : s.SameOutsideBuffer t
  hash : t.hash = compressAll s.hash (blocksOf b)
  live : t.live = b.drop (64 * (b.length / 64))
  bufLen : t.bufLen.val = b.length % 64
  draws : t.draws = s.draws + b.length / 64

theorem compressAll_cons (h : HashState) (b : Block) (bs : List Block) :
    compressAll h (b :: bs) = compressAll (compress h b) bs := rfl

theorem State.append_spec (data : List Byte) (s : State) : s.Appended (s.live ++ data) (s.append data) := by
  induction data generalizing s with
  | nil =>
    have hl := s.bufLen.isLt
    have h0 : s.live.length / 64 = 0 := by simp
    constructor
    · constructor <;> rfl
    · simp [State.append, blocksOf_short, compressAll]
    · rw [List.append_nil, h0]; rfl
    · simp [State.append]; omega
    · simp [State.append]
  | cons x data ih =>
    have hi := ih (s.appendByte x)
    have happ : s.append (x :: data) = (s.appendByte x).append data := rfl
    rw [happ]
    by_cases hr : s.bufLen.val + 1 < 64
    · have hb : (s.appendByte x).live ++ data = s.live ++ x :: data := by
        rw [State.live_appendByte_room hr]; simp
      rw [hb] at hi
      have hh : (s.appendByte x).hash = s.hash := by rw [State.appendByte_room hr]
      have hd : (s.appendByte x).draws = s.draws := by rw [State.appendByte_room hr]
      exact ⟨(s.appendByte_sameOutside x).trans hi.outside, hh ▸ hi.hash, hi.live, hi.bufLen, hd ▸ hi.draws⟩
    · have h63 : s.bufLen.val = 63 := by omega
      have hf := State.appendByte_full h63 x
      have hlive : (s.appendByte x).live = [] := by
        simp [hf, State.live, State.memRead]
      rw [hlive, List.nil_append] at hi
      have hlen : (s.live ++ [x]).length = 64 := by simp [h63]
      have hb : s.live ++ x :: data = (s.live ++ [x]) ++ data := by simp
      have hbl : (s.live ++ x :: data).length = 64 + data.length := by simp [h63]; omega
      have hq : (64 + data.length) / 64 = 1 + data.length / 64 := by omega
      refine ⟨(s.appendByte_sameOutside x).trans hi.outside, ?_, ?_, ?_, ?_⟩
      · rw [hb, blocksOf_append hlen, compressAll_cons, hi.hash, hf]
        simp [State.full_block h63]
      · rw [hi.live, hbl, hq, hb, Nat.mul_add, ← List.drop_drop, Nat.mul_one, ← hlen, List.drop_left, hlen]
      · rw [hi.bufLen, hbl]; omega
      · rw [hi.draws, hbl, hq, hf]
        simp; omega

/-- APPEND of two payloads in turn is APPEND of both. -/
theorem State.append_append (s : State) (d e : List Byte) : (s.append d).append e = s.append (d ++ e) := by
  simp [State.append]

end Sys2Proof.Machine
end

