-- ==== Sys2Proof/Laws/Compress.lean ====
section
/-! SUPPORT. Lengths of the tables and schedules, and chained compression. -/

namespace Sys2Proof.Machine

@[simp] theorem messageWords_length (blk : Block) : (messageWords blk).length = 16 := by simp [messageWords]

@[simp] theorem scheduleStep_length (w : List Word) : (scheduleStep w).length = w.length + 1 := by
  simp [scheduleStep]

/-- `n` steps of the recurrence add `n` words. -/
@[simp] theorem scheduleStep_iterate_length (n : Nat) (w : List Word) : (scheduleStep^[n] w).length = w.length + n := by
  induction n generalizing w with
  | zero => rfl
  | succ n ih => rw [Function.iterate_succ_apply, ih, scheduleStep_length]; omega

@[simp] theorem schedule_length (blk : Block) : (schedule blk).length = 64 := by simp [schedule]

@[simp] theorem roundConstants_length : roundConstants.length = 64 := rfl

/-- The recurrence never changes a word it has written. -/
theorem scheduleStep_getD_old {w : List Word} {t : Nat} (h : t < w.length) :
    (scheduleStep w).getD t 0 = w.getD t 0 := by
  simp [scheduleStep, List.getD_eq_getElem?_getD, List.getElem?_append_left h]

/-- The word the recurrence adds (42_compression_core.md R130). -/
theorem scheduleStep_getD_new (w : List Word) :
    (scheduleStep w).getD w.length 0 =
      smallSigma1 (w.getD (w.length - 2) 0) + w.getD (w.length - 7) 0 + smallSigma0 (w.getD (w.length - 15) 0) +
        w.getD (w.length - 16) 0 := by
  simp [scheduleStep, List.getD_eq_getElem?_getD]

/-- Later steps of the recurrence never change a word. -/
theorem scheduleStep_iterate_getD_old (n : Nat) {w : List Word} {t : Nat} (h : t < w.length) :
    (scheduleStep^[n] w).getD t 0 = w.getD t 0 := by
  induction n generalizing w with
  | zero => rfl
  | succ n ih => rw [Function.iterate_succ_apply, ih (by simp; omega), scheduleStep_getD_old h]

@[simp] theorem compressAll_nil (h : HashState) : compressAll h [] = h := rfl

theorem compressAll_append (h : HashState) (bs cs : List Block) :
    compressAll h (bs ++ cs) = compressAll (compressAll h bs) cs := by
  simp [compressAll]

@[simp] theorem digest_length (h : HashState) : (digest h).length = 32 := by
  simp [digest, List.length_flatMap]

end Sys2Proof.Machine
end

