-- ==== Sys2Proof/Laws/Decode.lean ====
section
/-! SUPPORT. What the decoder answers, case by case, and how long a frame is. -/

namespace Sys2Proof

open Machine

@[simp] theorem decode_be32Bytes (w : Word) (q : List Byte) : decode (be32Bytes w ++ q) = decodeWord w q := by
  simp [be32Bytes, decode, be32_be32Bytes]

theorem decodeWord_init (q : List Byte) : decodeWord (commandWord opInit 0) q = .frame .init q := by
  simp [decodeWord]

theorem decodeWord_final (q : List Byte) : decodeWord (commandWord opFinal 0) q = .frame .final q := by
  simp [decodeWord, opFinal, opInit]

theorem decodeWord_update (len : BitVec 24) (q : List Byte) :
    decodeWord (commandWord opUpdate len) q =
      if q.length < len.toNat then .incomplete
      else .frame (.update len (q.take len.toNat)) (q.drop len.toNat) := by
  simp [decodeWord, opFinal, opInit, opUpdate]

/-- Everything `decodeWord` can answer when it answers a frame. -/
theorem decodeWord_frame {w : Word} {q rest : List Byte} {i : Instr} (h : decodeWord w q = .frame i rest) :
    (w = commandWord opInit 0 ∧ i = .init ∧ rest = q) ∨
    (w = commandWord opFinal 0 ∧ i = .final ∧ rest = q) ∨
    (∃ len, w = commandWord opUpdate len ∧ len.toNat ≤ q.length ∧
      i = .update len (q.take len.toNat) ∧ rest = q.drop len.toNat) := by
  have hw := commandWord_fields w
  unfold decodeWord at h
  simp only at h
  split at h
  · split at h <;> simp_all
  · split at h
    · split at h <;> simp_all
    · split at h
      · split at h
        · simp at h
        · refine .inr (.inr ⟨operandField w, ?_, ?_, ?_, ?_⟩) <;> simp_all
      · simp at h

@[simp] theorem encode_init : encode .init = be32Bytes (commandWord opInit 0) := rfl

@[simp] theorem encode_update (len : BitVec 24) (data : List Byte) :
    encode (.update len data) = be32Bytes (commandWord opUpdate len) ++ data := rfl

@[simp] theorem encode_final : encode .final = be32Bytes (commandWord opFinal 0) := rfl

@[simp] theorem encodeAll_nil : encodeAll [] = [] := rfl

@[simp] theorem encodeAll_cons (i : Instr) (is : List Instr) : encodeAll (i :: is) = encode i ++ encodeAll is := rfl

@[simp] theorem encodeAll_append (is js : List Instr) : encodeAll (is ++ js) = encodeAll is ++ encodeAll js := by
  simp [encodeAll]

end Sys2Proof
end

