-- ==== Sys2Proof/Laws/Padding.lean ====
section
/-! SUPPORT. PAD hands over whole blocks only (43_padding_finalizer.md R160 to R162). -/

namespace Sys2Proof.Machine

/-- Every block PAD builds from a tail of fewer than 64 bytes has 64 bytes. -/
theorem pad_length {tail : List Byte} (h : tail.length < 64) (bl : Counter) :
    ∀ blk ∈ pad tail bl, blk.length = 64 := by
  intro blk hb
  unfold pad at hb
  split at hb
  · simp only [List.mem_singleton] at hb
    subst hb
    simp
    omega
  · simp only [List.mem_cons, List.not_mem_nil, or_false] at hb
    rcases hb with rfl | rfl <;> simp
    omega

/-- The blocks PAD hands to COMPRESS hold exactly the bytes PAD built. -/
theorem padBlocks_toList {tail : List Byte} (h : tail.length < 64) (bl : Counter) :
    (padBlocks tail bl).map Vector.toList = pad tail bl := by
  unfold padBlocks
  rw [List.map_map]
  conv => rhs; rw [← List.map_id (pad tail bl)]
  apply List.map_congr_left
  intro blk hb
  simp [toList_blockOfBytes (pad_length h bl blk hb)]

/-- The blocks of the bytes PAD built are the blocks it hands over. -/
theorem blocksOf_pad {tail : List Byte} (h : tail.length < 64) (bl : Counter) :
    blocksOf (pad tail bl).flatten = padBlocks tail bl := by
  have hl := pad_length h bl
  unfold padBlocks
  revert hl
  generalize pad tail bl = l
  intro hl
  induction l with
  | nil => rfl
  | cons b bs ih =>
    rw [List.flatten_cons, blocksOf_append (hl b (by simp)), List.map_cons,
      ih fun x hx => hl x (by simp [hx])]

end Sys2Proof.Machine
end

