-- ==== Sys2Proof/Laws/Engine.lean ====
section
/-! SUPPORT. Everything a command and a step can do: one lemma for each meaning and for `step`. -/

namespace Sys2Proof.Machine

/-- A chain of COMPRESS runs writes H, the transient registers and the draws, and nothing else. -/
theorem State.foldl_compressBlock (bs : List Block) (s : State) :
    let t := bs.foldl State.compressBlock s
    s.SameOutsideBuffer t ∧ t.hash = compressAll s.hash bs ∧ t.buf = s.buf ∧ t.bufLen = s.bufLen ∧
      t.draws = s.draws + bs.length := by
  induction bs generalizing s with
  | nil => exact ⟨by constructor <;> rfl, rfl, rfl, rfl, rfl⟩
  | cons b bs ih =>
    obtain ⟨h1, h2, h3, h4, h5⟩ := ih (s.compressBlock b)
    have h0 : s.SameOutsideBuffer (s.compressBlock b) := by constructor <;> simp
    refine ⟨h0.trans h1, h2, h3, h4, ?_⟩
    simp only [List.foldl_cons, List.length_cons]
    rw [h5]
    simp
    omega

/-- Everything `State.update` does (44_digest_engine.md R182). -/
theorem State.update_spec (len : BitVec 24) (data : List Byte) (s : State) :
    let t := State.update len data s
    s.Appended (s.live ++ data) (s.append data) ∧ t.hash = (s.append data).hash ∧ t.buf = (s.append data).buf ∧
      t.bufLen = (s.append data).bufLen ∧ t.live = (s.append data).live ∧ t.draws = (s.append data).draws ∧
      t.bitLen = s.bitLen + payloadBits len ∧ t.phase = .updating ∧ t.fault = s.fault ∧ t.refused = s.refused ∧
      t.cmdq = s.cmdq ∧ t.rspq = s.rspq ++ [statusOk] := by
  have h := State.append_spec data s
  refine ⟨h, rfl, rfl, rfl, rfl, rfl, ?_, rfl, h.outside.fault, h.outside.refused, h.outside.cmdq, ?_⟩
  · simp [State.update, h.outside.bitLen]
  · simp [State.update, h.outside.rspq]

/-- Everything `State.finalize` does (44_digest_engine.md R183). -/
theorem State.finalize_spec (s : State) :
    let t := s.finalize
    t.hash = compressAll s.hash (padBlocks s.live s.bitLen) ∧ t.bufLen = 0 ∧ t.bitLen = s.bitLen ∧
      t.phase = .finalized ∧ t.fault = s.fault ∧ t.refused = s.refused ∧ t.cmdq = s.cmdq ∧
      t.rspq = s.rspq ++ statusOk :: digest t.hash ∧
      t.draws = s.draws + (padBlocks s.live s.bitLen).length + 1 := by
  obtain ⟨h1, h2, -, -, h5⟩ := State.foldl_compressBlock (padBlocks s.live s.bitLen) s
  refine ⟨?_, rfl, ?_, rfl, ?_, ?_, ?_, ?_, ?_⟩
  · simpa [State.finalize] using h2
  · simpa [State.finalize] using h1.bitLen
  · simpa [State.finalize] using h1.fault
  · simpa [State.finalize] using h1.refused
  · simpa [State.finalize] using h1.cmdq
  · simpa [State.finalize] using h1.rspq
  · simp [State.finalize, h5]

/-- The three answers of the lifecycle check (60_exceptions.md R205). -/
theorem lifecycleChecked_cases (s : State) (run : State → State) :
    (s.phase = .uninit ∧ lifecycleChecked s run = .fault .uninit) ∨
    (s.phase = .finalized ∧ lifecycleChecked s run = .next s.raiseInvalidState) ∨
    ((s.phase = .init ∨ s.phase = .updating) ∧ lifecycleChecked s run = .next (run s)) := by
  cases h : s.phase <;> simp [lifecycleChecked, admission, h]

/-- What a command can do when it answers a next state. -/
theorem exec_next_cases {i : Instr} {s t : State} (h : exec i s = .next t) :
    (i = .init ∧ execInit s = .next t) ∨
    (i ≠ .init ∧ s.phase = .finalized ∧ t = s.raiseInvalidState) ∨
    ((s.phase = .init ∨ s.phase = .updating) ∧ ∃ len data, i = .update len data ∧ t = State.update len data s) ∨
    ((s.phase = .init ∨ s.phase = .updating) ∧ i = .final ∧ t = s.finalize) := by
  cases i with
  | init => exact .inl ⟨rfl, h⟩
  | update len data =>
    rcases lifecycleChecked_cases s (State.update len data) with ⟨-, e⟩ | ⟨hp, e⟩ | ⟨hp, e⟩ <;>
      simp only [exec, execUpdate, e, Host.Outcome.next.injEq, reduceCtorEq] at h
    · exact .inr (.inl ⟨by simp, hp, h.symm⟩)
    · exact .inr (.inr (.inl ⟨hp, len, data, rfl, h.symm⟩))
  | final =>
    rcases lifecycleChecked_cases s State.finalize with ⟨-, e⟩ | ⟨hp, e⟩ | ⟨hp, e⟩ <;>
      simp only [exec, execFinal, e, Host.Outcome.next.injEq, reduceCtorEq] at h
    · exact .inr (.inl ⟨by simp, hp, h.symm⟩)
    · exact .inr (.inr (.inr ⟨hp, rfl, h.symm⟩))

/-- A command that faults is UPDATE or FINAL in UNINIT, and no command is refused (60_exceptions.md R202). -/
theorem exec_stop_cases (i : Instr) (s : State) :
    (∃ t, exec i s = .next t) ∨ (exec i s = .fault .uninit ∧ s.phase = .uninit ∧ i ≠ .init) := by
  cases i with
  | init => exact .inl ⟨_, rfl⟩
  | update len data =>
    rcases lifecycleChecked_cases s (State.update len data) with ⟨hp, e⟩ | ⟨-, e⟩ | ⟨-, e⟩
    · exact .inr ⟨e, hp, by simp⟩
    · exact .inl ⟨_, e⟩
    · exact .inl ⟨_, e⟩
  | final =>
    rcases lifecycleChecked_cases s State.finalize with ⟨hp, e⟩ | ⟨-, e⟩ | ⟨-, e⟩
    · exact .inr ⟨e, hp, by simp⟩
    · exact .inl ⟨_, e⟩
    · exact .inl ⟨_, e⟩

/-- The step of an unmarked core. -/
theorem step_unmarked {s : State} (hf : s.fault = none) (hr : s.refused = none) :
    step s =
      match decode s.cmdq with
      | .reserved reason => .refused (refusalOf reason)
      | .incomplete => .next s
      | .frame i rest => exec i (s.consume rest) := by
  obtain ⟨⟩ := s
  subst hf hr
  rfl

/-- Everything `step` can do when it answers a next state: the core waits for bytes, or runs one whole frame. -/
theorem step_next_cases {s t : State} (h : step s = .next t) :
    s.fault = none ∧ s.refused = none ∧
      ((decode s.cmdq = .incomplete ∧ t = s) ∨
        ∃ i rest, decode s.cmdq = .frame i rest ∧ exec i (s.consume rest) = .next t) := by
  unfold step at h
  split at h
  · simp at h
  · simp at h
  · rename_i hf hr
    refine ⟨hf, hr, ?_⟩
    split at h
    · simp at h
    · rename_i hd
      simp only [Host.Outcome.next.injEq] at h
      exact .inl ⟨hd, h.symm⟩
    · rename_i i rest hd
      exact .inr ⟨i, rest, hd, h⟩

end Sys2Proof.Machine
end

