-- ==== Sys2Proof/Laws/Memory.lean ====
section
/-! SUPPORT. Reading and writing BUF (00_scope.md R11, 20_memory.md R50). BUF is a vector of 64 bytes, so every memory
operation keeps its form by its type (log 16). -/

namespace Sys2Proof.Machine

/-- A read within BUF gives as many bytes as it asks for. -/
theorem State.memRead_length (s : State) {j n : Nat} (h : j + n ≤ 64) : (s.memRead j n).length = n := by
  simp [State.memRead]
  omega

/-- Reading one byte. -/
theorem State.memRead_one (s : State) {j : Nat} (h : j < 64) : s.memRead j 1 = [s.buf[j]] := by
  simp only [State.memRead]
  rw [List.drop_eq_getElem_cons (by simpa using h)]
  simp

/-- A read after a write to the same byte gives the byte written. -/
theorem State.memRead_memWrite_same (s : State) (j : Fin 64) (v : Byte) : (s.memWrite j v).memRead j 1 = [v] := by
  rw [State.memRead_one _ j.isLt]
  simp

/-- A write leaves every other byte alone. -/
theorem State.memRead_memWrite_other (s : State) {j : Fin 64} {k : Nat} (hk : k < 64) (h : j.val ≠ k) (v : Byte) :
    (s.memWrite j v).memRead k 1 = s.memRead k 1 := by
  rw [State.memRead_one _ hk, State.memRead_one _ hk]
  simp [Vector.getElem_set_ne _ _ h]

end Sys2Proof.Machine
end

