-- ==== Sys2Proof/Laws/PerInstr.lean ====
section
/-! SUPPORT. Statements made of every instruction as syntax, one lemma per constructor. -/

namespace Sys2Proof.Laws.FrameLength

/-- The length of a well-formed frame: 4 bytes for INIT and FINAL, 4 + LEN for UPDATE (30_encoding.md R72). -/
def Statement (i : Instr) : Prop :=
  i.wf = true →
    (encode i).length =
      match i with
      | .init => 4
      | .update len _ => 4 + len.toNat
      | .final => 4

theorem init : Statement .init := fun _ => rfl

theorem update (len : BitVec 24) (data : List Byte) : Statement (.update len data) := by
  intro h
  simp only [Instr.wf, beq_iff_eq] at h
  simp [h]

theorem final : Statement .final := fun _ => rfl

end Sys2Proof.Laws.FrameLength
end

