-- ==== Sys2Proof/Laws/Run.lean ====
section
/-! SUPPORT. Runs of several steps. -/

namespace Sys2Proof.Machine

@[simp] theorem runSteps_zero (s : State) : runSteps 0 s = .next s := rfl

/-- A run that begins with a step that goes on. -/
theorem runSteps_succ {s t : State} (h : step s = .next t) (k : Nat) : runSteps (k + 1) s = runSteps k t := by
  simp [runSteps, h]

/-- A run of k + m steps is a run of k steps and then one of m. -/
theorem runSteps_add {k : Nat} {s t : State} (h : runSteps k s = .next t) (m : Nat) :
    runSteps (k + m) s = runSteps m t := by
  induction k generalizing s with
  | zero =>
    simp only [runSteps, Host.Outcome.next.injEq] at h
    rw [Nat.zero_add, h]
  | succ k ih =>
    rw [Nat.succ_add]
    simp only [runSteps] at h ⊢
    cases hs : step s with
    | next u =>
      rw [hs] at h
      exact ih h
    | fault f => simp [hs] at h
    | refused r => simp [hs] at h

/-- `runSteps` is the host's run of this machine. -/
theorem runSteps_eq_core_run (k : Nat) (s : State) : runSteps k s = Host.Core.run core k s := by
  induction k generalizing s with
  | zero => rfl
  | succ k ih =>
    have h : core.step s = step s := rfl
    simp only [runSteps, Host.Core.run, h]
    cases step s with
    | next t => exact ih t
    | fault f => rfl
    | refused r => rfl

/-- A marked core stays as it is (60_exceptions.md R214). -/
theorem State.advance_marked {s : State} (h : s.fault ≠ none ∨ s.refused ≠ none) :
    s.advance = s ∧ ∀ t, step s ≠ .next t := by
  unfold State.advance step
  cases hf : s.fault <;> cases hr : s.refused <;> simp_all

/-- The step of an unmarked core, with the state it leaves when it stops. -/
theorem State.advance_unmarked {s : State} (hf : s.fault = none) (hr : s.refused = none) :
    s.advance =
      match decode s.cmdq with
      | .reserved reason => s.markRefused (refusalOf reason)
      | .incomplete => s
      | .frame i rest =>
        match exec i (s.consume rest) with
        | .next t => t
        | .fault f => (s.consume rest).markFault f
        | .refused r => (s.consume rest).markRefused r := by
  obtain ⟨⟩ := s
  subst hf hr
  rfl

/-- Everything `advance` can do: the step's next state, or a stop that leaves the state, sets REFUSED, or consumes a
frame in UNINIT and sets FAULT. -/
theorem State.advance_cases (s : State) :
    (step s = .next s.advance) ∨
    ((∀ t, step s ≠ .next t) ∧
      (s.advance = s ∨ (∃ r, s.advance = s.markRefused r) ∨
        ∃ rest, s.phase = .uninit ∧ s.advance = (s.consume rest).markFault .uninit)) := by
  by_cases h : s.fault = none ∧ s.refused = none
  · have hs := step_unmarked h.1 h.2
    have ha := State.advance_unmarked h.1 h.2
    cases hd : decode s.cmdq with
    | reserved r =>
      rw [hd] at hs ha
      exact .inr ⟨by simp [hs], .inr (.inl ⟨_, ha⟩)⟩
    | incomplete =>
      rw [hd] at hs ha
      exact .inl (hs.trans (congrArg _ ha.symm))
    | frame i rest =>
      rw [hd] at hs ha
      rcases exec_stop_cases i (s.consume rest) with ⟨t, ht⟩ | ⟨ht, hp, -⟩
      · simp only [ht] at hs ha
        exact .inl (hs.trans (congrArg _ ha.symm))
      · simp only [ht] at hs ha
        exact .inr ⟨by simp [hs], .inr (.inr ⟨rest, hp, ha⟩)⟩
  · have hm : s.fault ≠ none ∨ s.refused ≠ none := by
      by_cases hf : s.fault = none
      · exact .inr fun hr => h ⟨hf, hr⟩
      · exact .inl hf
    exact .inr ⟨(State.advance_marked hm).2, .inl (State.advance_marked hm).1⟩

end Sys2Proof.Machine
end

