-- ==== Sys2Proof/Tests/Slice0.lean ====
section
/-! SUPPORT. The model's own tests: values from 95_test_vectors.md and words written out from 30_encoding.md, each
about one function or one step, and a witness for the hypotheses of every statement that has some. -/

namespace Sys2Proof.Tests

open Sys2Proof Sys2Proof.Machine

/-- The context INIT leaves (95_test_vectors.md V-D1), with an empty RSPQ. -/
def fresh : State := { State.reset with phase := .init, hash := iv }

/-- A context in FINALIZED. -/
def done : State := { State.reset with phase := .finalized, hash := iv, bitLen := 24 }

/-- A context in UPDATING with 63 zero bytes buffered and BITLEN about to wrap (95_test_vectors.md V-B10). -/
def brim : State := { State.reset with phase := .updating, hash := iv, bufLen := 63, bitLen := 0xFFFFFFFFFFFFFFF8 }

/-- The state with the given bytes in CMDQ. -/
def queued (s : State) (q : List Byte) : State := { s with cmdq := q }

/-- The next state of an outcome, if it has one. -/
def after : Host.Outcome State Fault Refusal → Option State
  | .next t => some t
  | .fault _ => none
  | .refused _ => none

/-! WellFormed: an ill-formed term for its one check (30_encoding.md R70). -/

theorem test_wf_refuses_short_payload : (Instr.update 3 [0x61, 0x62]).wf = false := by decide
theorem test_wf_refuses_long_payload : (Instr.update 0 [0x61]).wf = false := by decide
theorem test_wf_accepts_exact_payload : (Instr.update 3 [0x61, 0x62, 0x63]).wf = true := by decide

/-! Decode: the words of 30_encoding.md R72, OP in bits [31:24] and OPERAND in [23:0], written bit by bit. -/

theorem test_decode_init_word :
    decodeTableWord 32 0b00000001_00000000_00000000_00000000 = some .init := by decide
theorem test_decode_final_word :
    decodeTableWord 32 0b00000011_00000000_00000000_00000000 = some .final := by decide
theorem test_decode_update_word :
    decodeTableWord 32 0b00000010_00000000_00000000_00000101 = some (.update 5 [0, 0, 0, 0, 0]) := by decide
theorem test_decode_update_middle_byte : decodeWord 0x02000100 [0x61] = .incomplete := by decide
theorem test_decode_payload_bits :
    decodeTableWord 48 0x6261_02000002 = some (.update 2 [0x61, 0x62]) := by decide

-- 95_test_vectors.md V-E1 to V-E12
theorem test_decode_empty : decode [] = .incomplete := by decide
theorem test_decode_three_bytes : decode [0x01, 0x00, 0x00] = .incomplete := by decide
theorem test_decode_reserved_operand_low : decode [0x01, 0x00, 0x00, 0x01] = .reserved .operand := by decide
theorem test_decode_reserved_operand_high : decode [0x03, 0x80, 0x00, 0x00] = .reserved .operand := by decide
theorem test_decode_zero_word : decode [0x00, 0x00, 0x00, 0x00] = .reserved .opcode := by decide
theorem test_decode_all_ones : decode [0xff, 0xff, 0xff, 0xff] = .reserved .opcode := by decide
theorem test_decode_short_payload : decode [0x02, 0x00, 0x00, 0x03, 0x61, 0x62] = .incomplete := by decide
theorem test_decode_update_then_final :
    decode [0x02, 0x00, 0x00, 0x03, 0x61, 0x62, 0x63, 0x03, 0x00, 0x00, 0x00] =
      .frame (.update 3 [0x61, 0x62, 0x63]) [0x03, 0x00, 0x00, 0x00] := by decide
theorem test_decode_longest_update : decode [0x02, 0xff, 0xff, 0xff] = .incomplete := by decide

/-! Word functions: 95_test_vectors.md V-F1, V-F2. -/

theorem test_rotr_shr :
    rotr 0x12345678 1 = 0x091a2b3c ∧ rotr 0x12345678 31 = 0x2468acf0 ∧ shr 0x12345678 3 = 0x02468acf := by decide
theorem test_big_sigmas :
    bigSigma0 0x6a09e667 = 0xce20b47e ∧ bigSigma1 0x6a09e667 = 0x55b65510 := by decide
theorem test_small_sigmas :
    smallSigma0 0x6a09e667 = 0xba0cf582 ∧ smallSigma1 0x6a09e667 = 0xcfe5da3c := by decide
theorem test_ch_maj :
    ch 0x510e527f 0x9b05688c 0x1f83d9ab = 0x1f85c98c ∧ maj 0x6a09e667 0xbb67ae85 0x3c6ef372 = 0x3a6fe667 := by decide

/-! CompressionCore: 95_test_vectors.md V-W1, V-W3, V-A3, V-A2, V-C2, V-C3. -/

/-- The padded "abc" block (V-W1). -/
def abcBlock : Block := blockOfBytes ([0x61, 0x62, 0x63, 0x80] ++ zeroBytes 59 ++ [0x18])

theorem test_schedule_abc :
    (schedule abcBlock).getD 0 0 = 0x61626380 ∧ (schedule abcBlock).getD 17 0 = 0x000f0000 ∧
      (schedule abcBlock).getD 63 0 = 0x12b1edeb := by decide +kernel
theorem test_schedule_ones :
    (schedule (Vector.replicate 64 0xff)).getD 20 0 = 0x1e869660 ∧
      (schedule (Vector.replicate 64 0xff)).getD 63 0 = 0x4bceaf09 := by decide +kernel
theorem test_round_zero_abc :
    roundStep (load iv) 0x428a2f98 0x61626380 =
      ⟨0x5d6aebcd, 0x6a09e667, 0xbb67ae85, 0x3c6ef372, 0xfa2a4622, 0x510e527f, 0x9b05688c, 0x1f83d9ab⟩ := by decide +kernel
theorem test_rounds_abc :
    rounds (schedule abcBlock) (load iv) =
      ⟨0x506e3058, 0xd39a2165, 0x04d24d6c, 0xb85e2ce9, 0x5ef50f24, 0xfb121210, 0x948d25b6, 0x961f4894⟩ := by
  decide +kernel
theorem test_compress_abc : compress iv abcBlock = #v[0xba7816bf, 0x8f01cfea, 0x414140de, 0x5dae2223, 0xb00361a3, 0x96177a9c, 0xb410ff61, 0xf20015ad] := by decide +kernel
theorem test_compress_zero :
    compress (Vector.replicate 8 0) (Vector.replicate 64 0) = #v[0x7ca51614, 0x425c3ba8, 0xce54dd2f, 0xc2020ae7, 0xb6e574d1, 0x98136d0f, 0xae7e26cc, 0xbf0be7a6] := by decide +kernel
theorem test_compress_ones :
    compress (Vector.replicate 8 0xffffffff) (Vector.replicate 64 0xff) = #v[0x0598127a, 0xaf11706e, 0x77401fff, 0xd730c549, 0x0b84c867, 0xa98c6ca3, 0xd7f3c0f9, 0x06a78b79] := by decide +kernel
theorem test_compress_windowed_abc :
    compressWindowed (List.replicate 16 0x12345678) iv abcBlock = #v[0xba7816bf, 0x8f01cfea, 0x414140de, 0x5dae2223, 0xb00361a3, 0x96177a9c, 0xb410ff61, 0xf20015ad] := by decide +kernel
theorem test_message_digest_abc : messageDigest [0x61, 0x62, 0x63] = [0xba, 0x78, 0x16, 0xbf, 0x8f, 0x01, 0xcf, 0xea, 0x41, 0x41, 0x40, 0xde, 0x5d, 0xae, 0x22, 0x23, 0xb0, 0x03, 0x61, 0xa3, 0x96, 0x17, 0x7a, 0x9c, 0xb4, 0x10, 0xff, 0x61, 0xf2, 0x00, 0x15, 0xad] := by decide +kernel

/-! PaddingFinalizer: 95_test_vectors.md V-P3, V-P4, V-P5, V-P7. -/

theorem test_pad_three :
    pad (List.replicate 3 0x61) 24 = [[0x61, 0x61, 0x61, 0x80] ++ List.replicate 59 0x00 ++ [0x18]] := by decide
theorem test_pad_fifty_five :
    pad (List.replicate 55 0x61) 440 =
      [List.replicate 55 0x61 ++ [0x80, 0x00, 0x00, 0x00, 0x00, 0x00, 0x00, 0x01, 0xb8]] := by decide
theorem test_pad_fifty_six :
    pad (List.replicate 56 0x61) 448 =
      [List.replicate 56 0x61 ++ [0x80] ++ List.replicate 7 0x00, List.replicate 62 0x00 ++ [0x01, 0xc0]] := by decide
theorem test_pad_sixty_three :
    pad (List.replicate 63 0x61) 504 =
      [List.replicate 63 0x61 ++ [0x80], List.replicate 62 0x00 ++ [0x01, 0xf8]] := by decide

/-! Commands: 95_test_vectors.md V-D1 to V-D10, V-B10, 41_block_buffer.md R100, R101 examples. -/

theorem test_init_in_updating :
    (after (exec .init brim)).map (fun t => (t.phase, t.hash, t.bufLen, t.bitLen, t.rspq)) =
      some (.init, iv, 0, 0, [0x00]) := by decide +kernel
theorem test_init_clears_buf :
    (after (exec .init { brim with buf := Vector.replicate 64 0xff })).map (fun t => t.buf) =
      some (Vector.replicate 64 0x00) := by decide +kernel
theorem test_update_abc :
    (after (exec (.update 3 [0x61, 0x62, 0x63]) fresh)).map
        (fun t => (t.memRead 0 4, t.bufLen, t.bitLen, t.phase, t.hash == iv)) =
      some ([0x61, 0x62, 0x63, 0x00], 3, 24, .updating, true) := by decide +kernel
theorem test_update_fills_block_and_wraps :
    (after (exec (.update 2 [0x78, 0x79]) brim)).map (fun t => (t.hash, t.memRead 0 1, t.bufLen, t.bitLen)) =
      some (#v[0x26847bef, 0x5a296331, 0xd7e19af5, 0x3523a25e, 0xb9b25eac, 0x9fea904f, 0x6ec3cb21, 0xae22caf1], [0x79], 1, 8) := by decide +kernel
theorem test_update_rejected_in_finalized :
    after (exec (.update 2 [0x68, 0x69]) done) = some { done with rspq := [0x01] } := by decide +kernel
theorem test_update_faults_in_uninit : exec (.update 0 []) State.reset = .fault .uninit := rfl
theorem test_final_of_empty_message :
    (after (exec .final fresh)).map (fun t => (t.phase, t.bufLen, t.bitLen, t.rspq)) =
      some (.finalized, 0, 0, 0x00 :: [0xe3, 0xb0, 0xc4, 0x42, 0x98, 0xfc, 0x1c, 0x14, 0x9a, 0xfb, 0xf4, 0xc8, 0x99, 0x6f, 0xb9, 0x24, 0x27, 0xae, 0x41, 0xe4, 0x64, 0x9b, 0x93, 0x4c, 0xa4, 0x95, 0x99, 0x1b, 0x78, 0x52, 0xb8, 0x55]) := by decide +kernel
theorem test_final_two_block_path :
    (after (exec .final { fresh with phase := .updating, buf := Vector.replicate 64 0x61, bufLen := 56, bitLen := 448 })).map
        (fun t => t.rspq) = some (0x00 :: [0xb3, 0x54, 0x39, 0xa4, 0xac, 0x6f, 0x09, 0x48, 0xb6, 0xd6, 0xf9, 0xe3, 0xc6, 0xaf, 0x0f, 0x5f, 0x59, 0x0c, 0xe2, 0x0f, 0x1b, 0xde, 0x70, 0x90, 0xef, 0x79, 0x70, 0x68, 0x6e, 0xc6, 0x73, 0x8a]) := by decide +kernel

/-! The step: 95_test_vectors.md V-E6, V-E13, V-E14, V-D10, V-R2; 70_reset_and_hazards.md R237. -/

theorem test_step_waits_for_payload :
    after (step (queued fresh [0x02, 0x00, 0x00, 0x03, 0x61, 0x62])) =
      some (queued fresh [0x02, 0x00, 0x00, 0x03, 0x61, 0x62]) := by decide +kernel
theorem test_step_reserved_before_uninit :
    step (queued State.reset [0x05, 0x00, 0x00, 0x00]) = .refused .reservedOpcode := rfl
theorem test_step_marks_first :
    step { queued done [0x03, 0x00, 0x00, 0x00] with refused := some .reservedOperand } = .refused .reservedOperand :=
  rfl
theorem test_advance_records_fault :
    (queued State.reset [0x03, 0x00, 0x00, 0x00]).advance = { State.reset with fault := some .uninit } := by decide +kernel
theorem test_reset_discards_part_of_a_frame :
    ((queued fresh [0x02, 0x00, 0x00, 0x03, 0x61]).hostReset.hostAppend [0x01]).cmdq = [0x01] := by decide
theorem test_step_runs_first_word_after_reset :
    (after (step (State.reset.withFetchWord 32 0x01000000))).map (fun t => (t.phase, t.cmdq, t.rspq)) =
      some (.init, [], [0x00]) := by decide +kernel

/-! Pseudo-instructions and assembler text: 30_encoding.md R81, R82, 95_test_vectors.md P1, P2. -/

theorem test_assemble_update :
    assembleLine "UPDATE 3, \"abc\" ; comment".toList = some [.update 3 [0x61, 0x62, 0x63]] ∧
      assembleLine "UPDATE 0x2, x\"6869\"".toList = some [.update 2 [0x68, 0x69]] := by decide +kernel
theorem test_assemble_refuses_wrong_count : assembleLine "UPDATE 2, \"abc\"".toList = none := by decide +kernel
theorem test_assemble_hash :
    assembleBytes ["; P1".toList, "HASH \"abc\"".toList] =
      some [0x01, 0, 0, 0, 0x02, 0, 0, 0x03, 0x61, 0x62, 0x63, 0x03, 0, 0, 0] := by decide +kernel
theorem test_assemble_chunked :
    (assembleLine "UPDATE_CHUNKED 2, x\"616263\"".toList) = some [.update 2 [0x61, 0x62], .update 1 [0x63]] := by
  decide +kernel

/-! Witnesses: for every statement with hypotheses, a concrete state and operands that meet them, clause by clause and
at the boundaries of their ranges. -/

theorem witness_ResetEventClearsPhaseAndStreams : (queued brim [0x02]).Unmarked := by decide
theorem witness_PhaseTransitionTable :
    State.reset.phase = .uninit ∧ fresh.Ready ∧ brim.Ready ∧ done.phase = .finalized ∧ Instr.final ≠ .init := by decide
theorem witness_InitAndUpdatingPhasesAgree : fresh.phase = .init := by decide
theorem witness_MarksAreSticky :
    ({ fresh with fault := some .uninit } : State).fault = some .uninit ∧
      ({ done with refused := some .reservedOpcode } : State).refused = some .reservedOpcode := by decide
theorem witness_UpdateResult :
    ([0x61] : List Byte).length = (1 : BitVec 24).toNat ∧ State.reset.phase = .uninit ∧ done.phase = .finalized ∧
      fresh.Ready ∧ brim.Ready := by decide
theorem witness_UpdateCompressesEveryFullBlock :
    ([0x61] : List Byte).length = (1 : BitVec 24).toNat ∧ fresh.Ready ∧ brim.Ready ∧ brim.bufLen = 63 := by decide
theorem witness_UpdateOfOneByte :
    fresh.Ready ∧ fresh.bufLen.val < 63 ∧ ({ brim with bufLen := 62 } : State).Ready ∧ brim.Ready ∧ brim.bufLen.val = 63 := by
  decide
theorem witness_UpdateOfNoBytes : fresh.Ready := by decide
theorem witness_UpdateFrame :
    ∃ t, exec (.update 1 [0x61]) fresh = .next t ∧ fresh.Ready ∧ ([0x61] : List Byte).length = (1 : BitVec 24).toNat ∧
      (∀ k < 1, (fresh.bufLen + k) % 64 ≠ 63) ∧ fresh.bufLen.val + 1 < 64 :=
  ⟨_, rfl, by decide, by decide, by decide, by decide⟩
theorem witness_UpdateFrame_wrap :
    ∃ t, exec (.update 2 [0x78, 0x79]) brim = .next t ∧ brim.Ready ∧ (brim.bufLen.val + 1) % 64 = 0 :=
  ⟨_, rfl, by decide, by decide⟩
theorem witness_FinalResult :
    State.reset.phase = .uninit ∧ done.phase = .finalized ∧ fresh.Ready ∧ brim.Ready := by decide
theorem witness_FinalizedRejectsUpdateAndFinal :
    Instr.final.wf = true ∧ Instr.final ≠ .init ∧ (queued done (encode .final)).Unmarked ∧ done.phase = .finalized ∧
      (queued done (encode .final)).cmdq = encode .final ++ [] := by decide
theorem witness_FinalizedRejectsUpdateAndFinal_init : ∃ t, exec .init done = .next t := ⟨_, rfl⟩
theorem witness_RejectedUpdateConsumesPayload :
    ([0x68, 0x69] : List Byte).length = (2 : BitVec 24).toNat ∧ done.Unmarked ∧ done.phase = .finalized ∧
      (queued done [0x02, 0x00, 0x00, 0x02, 0x68, 0x69]).cmdq = encode (.update 2 [0x68, 0x69]) ++ [] := by decide
theorem witness_UseBeforeInitFaults :
    Instr.final.wf = true ∧ Instr.final ≠ .init ∧ State.reset.Unmarked ∧ State.reset.phase = .uninit ∧
      (queued State.reset [0x03, 0x00, 0x00, 0x00]).cmdq = encode .final ++ [] := by decide
theorem witness_CommandsKeepMarksAndQueue : ∃ t, exec .final fresh = .next t := ⟨_, rfl⟩
theorem witness_DigestIsImmutableUntilInit :
    ∃ t, done.phase = .finalized ∧ step (queued done [0x03, 0x00, 0x00, 0x00]) = .next t := ⟨_, rfl, rfl⟩
theorem witness_ResponseOfEveryCommand :
    (∃ t, exec .init fresh = .next t) ∧ (∃ t, exec .final done = .next t) ∧ ∀ t, step { fresh with fault := some .uninit } ≠ .next t :=
  ⟨⟨_, rfl⟩, ⟨_, rfl⟩, fun _ h => nomatch h⟩
theorem witness_WorkDependsOnLengthsOnly :
    ∃ t, Instr.final.wf = true ∧ fresh.Ready ∧ exec .final fresh = .next t := ⟨_, rfl, .inl rfl, rfl⟩
theorem witness_StepRunsTheDecodedFrame :
    fresh.Unmarked ∧ decode [0x03, 0x00, 0x00, 0x00] = .frame .final [] ∧
      decode [0x04, 0x00, 0x00, 0x00] = .reserved .opcode ∧ decode [0x01] = .incomplete := by decide
theorem witness_OrderOfChecks :
    ¬ ({ fresh with refused := some .reservedOpcode } : State).Unmarked ∧
      decode (queued State.reset [0x03, 0x00, 0x00, 0x00]).cmdq = .frame .final [] ∧ State.reset.Unmarked ∧
      State.reset.phase = .uninit ∧ done.phase = .finalized ∧ fresh.Ready := by decide
theorem witness_OrderOfChecks_reserved :
    (queued State.reset [0x05, 0x00, 0x00, 0x00]).Unmarked ∧
      decode (queued State.reset [0x05, 0x00, 0x00, 0x00]).cmdq = .reserved .opcode ∧
      decode (queued State.reset [0x03, 0x00, 0x00, 0x01]).cmdq = .reserved .operand := by decide
theorem witness_OrderOfChecks_incomplete :
    (queued State.reset [0x02, 0x00, 0x00, 0x01]).Unmarked ∧
      decode (queued State.reset [0x02, 0x00, 0x00, 0x01]).cmdq = .incomplete := by decide
theorem witness_WellFormedStreamsRunSafely :
    (∀ i ∈ ([.init, .final] : List Instr), i.wf = true) ∧ State.reset.Unmarked ∧
      ([.init, .final] : List Instr).head? = some .init ∧
      (queued State.reset [0x01, 0, 0, 0, 0x03, 0, 0, 0]).cmdq = encodeAll [.init, .final] := by decide
theorem witness_ReservedWordsAreRefused :
    (queued fresh [0x04, 0x00, 0x00, 0x00]).Unmarked ∧ 0x04 ≤ (0x04 : Byte).toNat ∧ (1 : Byte) ≠ 0 := by decide
theorem witness_ReservedWordsAreRefused_clauses :
    (queued fresh [0x00, 0x00, 0x00, 0x00]).Unmarked ∧ (queued fresh [0xff, 0x00, 0x00, 0x00]).Unmarked ∧
      0x04 ≤ (0xff : Byte).toNat ∧ (queued fresh [0x01, 0x00, 0x00, 0x01]).Unmarked ∧
      (queued fresh [0x03, 0x80, 0x00, 0x00]).Unmarked ∧ (0x80 : Byte) ≠ 0 ∧
      (queued fresh [0x02, 0xff, 0xff, 0xff]).Unmarked := by decide
theorem witness_IncompletePayloadWaits :
    (queued fresh [0x02, 0x00, 0x00, 0x01]).Unmarked ∧ ([] : List Byte).length < (1 : BitVec 24).toNat ∧
      [] ++ [0x61, 0x01] = ([0x61] ++ [0x01] : List Byte) ∧ ([0x61] : List Byte).length = (1 : BitVec 24).toNat ∧
      (queued fresh [0x02, 0x00, 0x00, 0x01]).cmdq =
        [0x02, (1 : BitVec 24).extractLsb' 16 8, (1 : BitVec 24).extractLsb' 8 8, (1 : BitVec 24).extractLsb' 0 8] ++ [] := by
  decide
theorem witness_DecodeOfEveryByteSequence : ([0x01, 0x00, 0x00] : List Byte).length < 4 := by decide
theorem witness_DecodeOfEncodeIsTheFrame : (Instr.update 1 [0xff]).wf = true := by decide
theorem witness_DecodedFrameIsItsEncoding :
    decode [0x02, 0x00, 0x00, 0x01, 0xff, 0x03] = .frame (.update 1 [0xff]) [0x03] := by decide
theorem witness_FramesRunInOrder :
    (∀ i ∈ ([.init, .final] : List Instr), i.wf = true) ∧ State.reset.Unmarked ∧ State.reset.phase = .uninit ∧
      ([.init, .final] : List Instr).head? = some .init ∧
      (queued State.reset [0x01, 0, 0, 0, 0x03, 0, 0, 0]).cmdq = encodeAll [.init, .final] ++ [] := by decide
theorem witness_RotateAndShiftBits : 31 < 32 ∧ 0 < 32 := by decide
theorem witness_ScheduleWords : 15 < 16 ∧ 16 ≤ 16 ∧ 63 < 64 := by decide
theorem witness_WindowedSchedulerAgrees : (List.replicate 16 (0xffffffff : Word)).length = 16 := by decide
theorem witness_PaddingBlocks :
    (List.replicate 55 (0x61 : Byte)).length ≤ 55 ∧ 56 ≤ (List.replicate 56 (0x61 : Byte)).length ∧
      (List.replicate 63 (0x61 : Byte)).length < 64 := by decide
theorem witness_PaddedMessageIsWholeBlocks :
    ([0x61] : List Byte).length = (List.replicate 65 (0x61 : Byte)).length % 64 := by decide
theorem witness_PseudoInstructionExpansions : 1 ≤ 16 ∧ 16 ≤ 16777215 := by decide
theorem witness_IncrementalConsistency :
    fresh.Unmarked ∧ fresh.Ready ∧ ([[0x61], [], [0x62]] : List (List Byte)).flatten = [[0x61, 0x62]].flatten ∧
      ∀ p ∈ ([[0x61], [], [0x62]] : List (List Byte)), p.length ≤ 16777215 := by decide
theorem witness_CountersFollowTheTotal :
    (queued done [0x01, 0, 0, 0, 0x02, 0, 0, 0x01, 0x61]).Unmarked ∧
      (∀ p ∈ ([[0x61]] : List (List Byte)), p.length ≤ 16777215) ∧
      (queued done [0x01, 0, 0, 0, 0x02, 0, 0, 0x01, 0x61]).cmdq = encodeAll (.init :: [[0x61]].map updateFrame) := by
  decide
theorem witness_AnySplitReturnsTheMessageDigest :
    State.reset.Unmarked ∧ (∀ p ∈ ([[0x61]] : List (List Byte)), p.length ≤ 16777215) ∧
      (queued State.reset [0x01, 0, 0, 0, 0x02, 0, 0, 0x01, 0x61, 0x03, 0, 0, 0]).cmdq =
        encodeAll (.init :: ([[0x61]].map updateFrame ++ [.final])) ++ [] := by decide
theorem witness_HashReturnsTheMessageDigest :
    State.reset.Unmarked ∧
      (queued State.reset [0x01, 0, 0, 0, 0x02, 0, 0, 0x01, 0x61, 0x03, 0, 0, 0]).cmdq = encodeAll (hashProgram [0x61]) := by
  decide
theorem witness_StepKeepsCoherence :
    ∃ t, fresh.Coherent ∧ step (queued fresh [0x02, 0, 0, 0x01, 0x61]) = .next t :=
  ⟨_, ⟨fun _ => ⟨rfl, rfl, rfl, rfl⟩, fun _ => rfl, fun h => nomatch h⟩, rfl⟩
theorem witness_EveryEventKeepsCoherence : brim.Coherent :=
  ⟨(fun h => nomatch h), fun _ => rfl, fun h => nomatch h⟩
theorem witness_StepIgnoresUnspecifiedState :
    Indistinguishable fresh { fresh with buf := Vector.replicate 64 0xff, round := 63, draws := 7 } :=
  ⟨rfl, rfl, rfl, rfl, rfl, fun _ => rfl, fun _ => rfl, fun _ => rfl⟩
theorem witness_NoUnspecifiedValueIsObserved : Indistinguishable State.reset { State.reset with hash := iv, bufLen := 63 } := by
  refine ⟨rfl, rfl, rfl, rfl, rfl, fun h => ?_, fun _ => rfl, fun h => ?_⟩ <;> revert h <;> decide
theorem witness_InstancesCommute : (0 : Fin 2) ≠ 1 := by decide

end Sys2Proof.Tests
end

section
/-! The bits of ROTR and SHR (00_scope.md R9). -/

namespace Sys2Proof.Machine

/-- SHR moves bit i + n to place i. Past the top it reads the zeros a right shift fills in. -/
@[simp] theorem getLsbD_shr (x : Word) (n i : Nat) : (shr x n).getLsbD i = x.getLsbD (i + n) := by
  rw [shr, BitVec.getLsbD_ushiftRight, Nat.add_comm]

/-- For the amounts R9 allows, the two shifts of ROTR join to the library's rotation. -/
theorem rotr_eq_rotateRight (x : Word) {n : Nat} (hn : n < 32) : rotr x n = x.rotateRight n := by
  rw [rotr, BitVec.rotateRight_def, Nat.mod_eq_of_lt hn]

/-- The bits that the right shift keeps are those below place 32 - n; the left shift supplies the others, 32 places
lower, which is the reduction mod 32. -/
theorem getLsbD_rotr (x : Word) {n i : Nat} (hn : n < 32) (hi : i < 32) :
    (rotr x n).getLsbD i = x.getLsbD ((i + n) % 32) := by
  rw [rotr_eq_rotateRight x hn, BitVec.getLsbD_rotateRight, Nat.mod_eq_of_lt hn]
  by_cases hkept : i < 32 - n
  · have hsrc : (i + n) % 32 = n + i := by omega
    rw [hsrc, decide_eq_true hkept, cond_true]
  · have hsrc : (i + n) % 32 = i - (32 - n) := by omega
    rw [hsrc, decide_eq_false hkept, cond_false, decide_eq_true hi, Bool.true_and]

/-- Settles O32: the bit of ROTR by its split at i + n = 32, and SHR's bit i + n, which is 0 from 32 on. -/
theorem rotateAndShiftBits : Obligations.RotateAndShiftBits := by
  intro x n i hn hi
  refine ⟨getLsbD_rotr x hn hi, ?_⟩
  rw [getLsbD_shr]
  by_cases hin : i + n < 32
  · rw [decide_eq_true hin, Bool.true_and]
  · rw [decide_eq_false hin, Bool.false_and, BitVec.getLsbD_of_ge x _ (by omega)]

end Sys2Proof.Machine
end

section
/-! The decoder against the encoder, both ways (30_encoding.md R70 to R77). -/

namespace Sys2Proof

open Machine

theorem wf_update_iff {len : BitVec 24} {data : List Byte} :
    (Instr.update len data).wf = true ↔ data.length = len.toNat := beq_iff_eq

/-- The decoder reads a well-formed frame back, whatever follows it. -/
theorem decode_encode_append {i : Instr} (hwf : i.wf = true) (rest : List Byte) :
    decode (encode i ++ rest) = .frame i rest := by
  cases i with
  | init => rw [encode_init, decode_be32Bytes, decodeWord_init]
  | final => rw [encode_final, decode_be32Bytes, decodeWord_final]
  | update len data =>
    have hlen := wf_update_iff.mp hwf
    rw [encode_update, List.append_assoc, decode_be32Bytes, decodeWord_update]
    simp [← hlen]

/-- A decoded frame is well-formed, and its encoding is what the decoder read. -/
theorem wf_and_eq_encode_of_decode {q rest : List Byte} {i : Instr} (h : decode q = .frame i rest) :
    i.wf = true ∧ q = encode i ++ rest := by
  match q, h with
  | b0 :: b1 :: b2 :: b3 :: q, h =>
    have hbytes (w : Word) (hw : be32 b0 b1 b2 b3 = w) (l : List Byte) :
        b0 :: b1 :: b2 :: b3 :: l = be32Bytes w ++ l := by
      rw [← hw, be32Bytes_be32]; rfl
    rcases decodeWord_frame h with ⟨hw, rfl, rfl⟩ | ⟨hw, rfl, rfl⟩ | ⟨len, hw, hlen, rfl, rfl⟩
    · exact ⟨rfl, hbytes _ hw _⟩
    · exact ⟨rfl, hbytes _ hw _⟩
    · refine ⟨wf_update_iff.mpr (List.length_take_of_le hlen), ?_⟩
      rw [encode_update, List.append_assoc, List.take_append_drop]
      exact hbytes _ hw q

end Sys2Proof
end

section
/-! The step and the state it leaves, one rule for each branch (60_exceptions.md R205). -/

namespace Sys2Proof.Machine

theorem step_of_fault {s : State} {f : Fault} (hf : s.fault = some f) : step s = .fault f := by
  simp [step, hf]

theorem step_of_refused {s : State} {r : Refusal} (hf : s.fault = none) (hr : s.refused = some r) :
    step s = .refused r := by
  simp [step, hf, hr]

theorem step_of_reserved {s : State} {r : ReservedReason} (hu : s.Unmarked) (hd : decode s.cmdq = .reserved r) :
    step s = .refused (refusalOf r) := by
  simp [step_unmarked hu.1 hu.2, hd]

theorem step_of_incomplete {s : State} (hu : s.Unmarked) (hd : decode s.cmdq = .incomplete) : step s = .next s := by
  simp [step_unmarked hu.1 hu.2, hd]

theorem step_of_frame {s : State} {i : Instr} {rest : List Byte} (hu : s.Unmarked)
    (hd : decode s.cmdq = .frame i rest) : step s = exec i (s.consume rest) := by
  simp [step_unmarked hu.1 hu.2, hd]

/-- An unmarked core with a well-formed frame at the head of CMDQ runs it. -/
theorem step_of_encode {s : State} {i : Instr} {rest : List Byte} (hu : s.Unmarked) (hwf : i.wf = true)
    (hq : s.cmdq = encode i ++ rest) : step s = exec i (s.consume rest) :=
  step_of_frame hu (by rw [hq, decode_encode_append hwf])

theorem admission_eq_runs_iff (s : State) : admission s.phase = .runs ↔ s.Ready := by
  cases hp : s.phase <;> simp [admission, State.Ready, hp]

theorem lifecycleChecked_of_ready {s : State} (h : s.Ready) (run : State → State) :
    lifecycleChecked s run = .next (run s) := by
  simp [lifecycleChecked, (admission_eq_runs_iff s).mpr h]

end Sys2Proof.Machine
end

section
/-! The counters stay coherent over every step and every event (10_state.md R37). -/

namespace Sys2Proof.Machine

/-- BITLEN stays in step with BUF_LEN when both count the same payload bytes: 2^64 is a multiple of 512. -/
theorem bitLen_inStep_add {b : Counter} {len : BitVec 24} {n : Nat} (h : b.toNat % 512 = 8 * n) :
    (b + payloadBits len).toNat % 512 = 8 * ((n + len.toNat) % 64) := by
  rw [payloadBits, BitVec.toNat_add, BitVec.toNat_ofNat]
  omega

/-- The fill level after an UPDATE (41_block_buffer.md R105). -/
theorem State.update_bufLen (len : BitVec 24) (data : List Byte) (s : State) :
    (State.update len data s).bufLen.val = (s.bufLen.val + data.length) % 64 := by
  rw [State.update, State.respond_bufLen, (State.append_spec data s).bufLen, List.length_append, State.live_length]

/-- In UNINIT nothing is said of the counters (10_state.md R39). -/
theorem State.coherent_of_uninit {s : State} (hp : s.phase = .uninit) : s.Coherent := by
  constructor <;> simp [State.Ready, hp]

/-- The context INIT makes is coherent, whatever was there before. -/
theorem execInit_coherent {s t : State} (h : execInit s = .next t) : t.Coherent := by
  obtain rfl := Host.Outcome.next.inj h
  exact ⟨fun _ => ⟨rfl, rfl, rfl, rfl⟩, fun _ => rfl, fun hp => nomatch hp⟩

theorem State.Coherent.update {s : State} {len : BitVec 24} {data : List Byte} (h : s.Coherent) (hr : s.Ready)
    (hlen : data.length = len.toNat) : (State.update len data s).Coherent := by
  obtain ⟨-, -, -, -, -, -, hbits, hphase, -⟩ := State.update_spec len data s
  refine ⟨by simp [hphase], fun _ => ?_, by simp [hphase]⟩
  rw [hbits, State.update_bufLen, hlen]
  exact bitLen_inStep_add (h.inStep hr)

theorem State.finalize_coherent (s : State) : s.finalize.Coherent := by
  obtain ⟨-, hlen, -, hphase, -⟩ := s.finalize_spec
  exact ⟨by simp [hphase], by simp [hphase], by simp [hlen]⟩

/-- A well-formed command keeps the counters coherent. -/
theorem State.Coherent.exec {s t : State} {i : Instr} (h : s.Coherent) (hwf : i.wf = true)
    (he : Machine.exec i s = .next t) : t.Coherent := by
  rcases exec_next_cases he with ⟨-, hi⟩ | ⟨-, -, rfl⟩ | ⟨hr, len, data, rfl, rfl⟩ | ⟨-, -, rfl⟩
  · exact execInit_coherent hi
  · exact ⟨h.fresh, h.inStep, h.consumed⟩
  · exact h.update hr (wf_update_iff.mp hwf)
  · exact s.finalize_coherent

theorem State.Coherent.step {s t : State} (h : s.Coherent) (hs : Machine.step s = .next t) : t.Coherent := by
  obtain ⟨-, -, ⟨-, rfl⟩ | ⟨i, rest, hd, he⟩⟩ := step_next_cases hs
  · exact h
  · have hc : (s.consume rest).Coherent := ⟨h.fresh, h.inStep, h.consumed⟩
    exact hc.exec (wf_and_eq_encode_of_decode hd).1 he

/-- Settles O50: the core waits, or runs one decoded, and so well-formed, frame. -/
theorem stepKeepsCoherence : Obligations.StepKeepsCoherence := fun _ _ h hs => h.step hs

/-- A stop writes no counter, so the state it leaves is as coherent as the state before. -/
theorem State.Coherent.advance {s : State} (h : s.Coherent) : s.advance.Coherent := by
  rcases s.advance_cases with hs | ⟨-, ha | ⟨r, ha⟩ | ⟨rest, -, ha⟩⟩
  · exact h.step hs
  · rwa [ha]
  · rw [ha]; exact ⟨h.fresh, h.inStep, h.consumed⟩
  · rw [ha]; exact ⟨h.fresh, h.inStep, h.consumed⟩

/-- Settles O51: the core's step by its cases, a host action because it writes a stream only, and reset because it
leaves PHASE = UNINIT. -/
theorem everyEventKeepsCoherence : Obligations.EveryEventKeepsCoherence := by
  intro s e h
  cases e with
  | core => exact h.advance
  | append bs => exact ⟨h.fresh, h.inStep, h.consumed⟩
  | take n => exact ⟨h.fresh, h.inStep, h.consumed⟩
  | reset => exact State.coherent_of_uninit s.hostReset_phase

/-- Settles O49: PHASE = UNINIT at reset. -/
theorem resetIsCoherent : Obligations.ResetIsCoherent := State.coherent_of_uninit rfl

/-- Settles O1: the fields of `State.reset` that R39 gives. -/
theorem resetHoldsSpecValues : Obligations.ResetHoldsSpecValues := ⟨rfl, rfl, ⟨rfl, rfl⟩, rfl, rfl⟩

end Sys2Proof.Machine
end

section
/-! No step and no event depends on an unspecified value (10_state.md R22, R32, R39). -/

namespace Sys2Proof.Machine

/-- Outside INIT and UPDATING nothing but PHASE, the marks and the streams counts. -/
theorem Indistinguishable.of_not_ready {s t : State} (hr : ¬ s.Ready) (hp : s.phase = t.phase)
    (hf : s.fault = t.fault) (hm : s.refused = t.refused) (hq : s.cmdq = t.cmdq) (ho : s.rspq = t.rspq) :
    Indistinguishable s t :=
  ⟨hp, hf, hm, hq, ho, fun h => absurd h hr, fun h => absurd h hr, fun h => absurd h hr⟩

variable {s t : State}

theorem Indistinguishable.consume (h : Indistinguishable s t) (rest : List Byte) :
    Indistinguishable (s.consume rest) (t.consume rest) :=
  ⟨h.phase, h.fault, h.refused, rfl, h.rspq, h.hash, h.bitLen, h.live⟩

theorem Indistinguishable.respond (h : Indistinguishable s t) (r : List Byte) :
    Indistinguishable (s.respond r) (t.respond r) :=
  ⟨h.phase, h.fault, h.refused, h.cmdq, congrArg (· ++ r) h.rspq, h.hash, h.bitLen, h.live⟩

theorem Indistinguishable.markFault (h : Indistinguishable s t) (f : Fault) :
    Indistinguishable (s.markFault f) (t.markFault f) :=
  ⟨h.phase, rfl, h.refused, h.cmdq, h.rspq, h.hash, h.bitLen, h.live⟩

theorem Indistinguishable.markRefused (h : Indistinguishable s t) (r : Refusal) :
    Indistinguishable (s.markRefused r) (t.markRefused r) :=
  ⟨h.phase, h.fault, rfl, h.cmdq, h.rspq, h.hash, h.bitLen, h.live⟩

theorem Indistinguishable.hostAppend (h : Indistinguishable s t) (bs : List Byte) :
    Indistinguishable (s.hostAppend bs) (t.hostAppend bs) :=
  ⟨h.phase, h.fault, h.refused, congrArg (· ++ bs) h.cmdq, h.rspq, h.hash, h.bitLen, h.live⟩

theorem Indistinguishable.hostTake (h : Indistinguishable s t) (n : Nat) :
    Indistinguishable (s.hostTake n) (t.hostTake n) :=
  ⟨h.phase, h.fault, h.refused, h.cmdq, congrArg (·.drop n) h.rspq, h.hash, h.bitLen, h.live⟩

theorem Indistinguishable.hostReset (h : Indistinguishable s t) : Indistinguishable s.hostReset t.hostReset :=
  .of_not_ready (by simp [State.Ready]) rfl h.fault h.refused rfl rfl

/-- UPDATE reads H, BITLEN and the buffered bytes only: H and the buffered bytes after it are functions of the bytes
buffered on entry and the payload (41_block_buffer.md R104, R105). -/
theorem Indistinguishable.update (h : Indistinguishable s t) (hr : s.Ready) (len : BitVec 24) (data : List Byte) :
    Indistinguishable (State.update len data s) (State.update len data t) := by
  obtain ⟨has, hhs, -, -, hls, -, hbs, hps, hfs, hms, hqs, hos⟩ := State.update_spec len data s
  obtain ⟨hat, hht, -, -, hlt, -, hbt, hpt, hft, hmt, hqt, hot⟩ := State.update_spec len data t
  constructor
  case phase => rw [hps, hpt]
  case fault => rw [hfs, hft, h.fault]
  case refused => rw [hms, hmt, h.refused]
  case cmdq => rw [hqs, hqt, h.cmdq]
  case rspq => rw [hos, hot, h.rspq]
  case hash => exact fun _ => by rw [hhs, hht, has.hash, hat.hash, h.hash hr, h.live hr]
  case bitLen => exact fun _ => by rw [hbs, hbt, h.bitLen hr]
  case live => exact fun _ => by rw [hls, hlt, has.live, hat.live, h.live hr]

/-- FINAL reads H, BITLEN and the buffered bytes only; its response is the digest of what they give. -/
theorem Indistinguishable.finalize (h : Indistinguishable s t) (hr : s.Ready) :
    Indistinguishable s.finalize t.finalize := by
  obtain ⟨hhs, -, -, hps, hfs, hms, hqs, hos, -⟩ := s.finalize_spec
  obtain ⟨hht, -, -, hpt, hft, hmt, hqt, hot, -⟩ := t.finalize_spec
  have hhash : s.finalize.hash = t.finalize.hash := by rw [hhs, hht, h.hash hr, h.live hr, h.bitLen hr]
  apply Indistinguishable.of_not_ready
  · simp [State.Ready, hps]
  · rw [hps, hpt]
  · rw [hfs, hft, h.fault]
  · rw [hms, hmt, h.refused]
  · rw [hqs, hqt, h.cmdq]
  · rw [hos, hot, h.rspq, hhash]

/-- The lifecycle check reads PHASE only, and lets `run` run in INIT and UPDATING only. -/
theorem Indistinguishable.lifecycleChecked (h : Indistinguishable s t) {run : State → State}
    (hrun : s.Ready → Indistinguishable (run s) (run t)) :
    SameOutcome (Machine.lifecycleChecked s run) (Machine.lifecycleChecked t run) := by
  unfold Machine.lifecycleChecked
  rw [← h.phase]
  cases ha : admission s.phase with
  | uninitFault => exact rfl
  | invalidState => exact h.respond _
  | runs => exact hrun ((admission_eq_runs_iff s).mp ha)

/-- INIT writes all that INIT and UPDATING let a later command depend on (10_state.md R39). -/
theorem Indistinguishable.exec (h : Indistinguishable s t) (i : Instr) :
    SameOutcome (Machine.exec i s) (Machine.exec i t) := by
  cases i with
  | init =>
    exact ⟨rfl, h.fault, h.refused, h.cmdq, congrArg (· ++ [statusOk]) h.rspq, fun _ => rfl, fun _ => rfl,
      fun _ => rfl⟩
  | update len data => exact h.lifecycleChecked fun hr => h.update hr len data
  | final => exact h.lifecycleChecked fun hr => h.finalize hr

/-- The state that an outcome of a command leaves, where the command ran in `s`: a stop sets its mark. -/
def State.leave (s : State) : Host.Outcome State Fault Refusal → State
  | .next t => t
  | .fault f => s.markFault f
  | .refused r => s.markRefused r

theorem State.advance_of_frame {i : Instr} {rest : List Byte} (hu : s.Unmarked)
    (hd : decode s.cmdq = .frame i rest) : s.advance = (s.consume rest).leave (Machine.exec i (s.consume rest)) := by
  rw [State.advance_unmarked hu.1 hu.2, hd]
  rfl

theorem Indistinguishable.leave (h : Indistinguishable s t) :
    ∀ {o p : Host.Outcome State Fault Refusal}, SameOutcome o p → Indistinguishable (s.leave o) (t.leave p)
  | .next _, .next _, ho => ho
  | .fault f, .fault _, rfl => h.markFault f
  | .refused r, .refused _, rfl => h.markRefused r

/-- The two steps take the same branch, since the marks and CMDQ decide it, and the branch reads nothing that may
differ. -/
theorem Indistinguishable.step_and_advance (h : Indistinguishable s t) :
    SameOutcome (step s) (step t) ∧ Indistinguishable s.advance t.advance := by
  by_cases hu : s.Unmarked
  · have hv : t.Unmarked := ⟨h.fault ▸ hu.1, h.refused ▸ hu.2⟩
    cases hd : decode s.cmdq with
    | reserved r =>
      have he : decode t.cmdq = .reserved r := h.cmdq ▸ hd
      rw [step_of_reserved hu hd, step_of_reserved hv he, State.advance_unmarked hu.1 hu.2,
        State.advance_unmarked hv.1 hv.2, hd, he]
      exact ⟨rfl, h.markRefused _⟩
    | incomplete =>
      have he : decode t.cmdq = .incomplete := h.cmdq ▸ hd
      rw [step_of_incomplete hu hd, step_of_incomplete hv he, State.advance_unmarked hu.1 hu.2,
        State.advance_unmarked hv.1 hv.2, hd, he]
      exact ⟨h, h⟩
    | frame i rest =>
      have he : decode t.cmdq = .frame i rest := h.cmdq ▸ hd
      have hexec := (h.consume rest).exec i
      rw [step_of_frame hu hd, step_of_frame hv he, State.advance_of_frame hu hd, State.advance_of_frame hv he]
      exact ⟨hexec, (h.consume rest).leave hexec⟩
  · have hs : s.fault ≠ none ∨ s.refused ≠ none := not_and_or.mp hu
    have ht : t.fault ≠ none ∨ t.refused ≠ none := h.fault ▸ h.refused ▸ hs
    rw [(State.advance_marked hs).1, (State.advance_marked ht).1]
    refine ⟨?_, h⟩
    cases hf : s.fault with
    | some f =>
      rw [step_of_fault hf, step_of_fault (h.fault ▸ hf)]
      exact rfl
    | none =>
      obtain ⟨r, hr⟩ := Option.ne_none_iff_exists'.mp (hs.resolve_left (not_not.mpr hf))
      rw [step_of_refused hf hr, step_of_refused (h.fault ▸ hf) (h.refused ▸ hr)]
      exact rfl

/-- Settles O52 by `Indistinguishable.step_and_advance`. -/
theorem stepIgnoresUnspecifiedState : Obligations.StepIgnoresUnspecifiedState :=
  fun _ _ h => h.step_and_advance.1

theorem Indistinguishable.react (h : Indistinguishable s t) (e : Event) :
    Indistinguishable (s.react e) (t.react e) := by
  cases e with
  | core => exact h.step_and_advance.2
  | append bs => exact h.hostAppend bs
  | take n => exact h.hostTake n
  | reset => exact h.hostReset

theorem Indistinguishable.emitted_eq (h : Indistinguishable s t) : s.emitted = t.emitted := by
  rw [State.emitted, State.emitted, h.rspq, h.step_and_advance.2.rspq]

/-- Settles O53 by induction on the events: each keeps the relation, and a step emits the same bytes from both. -/
theorem noUnspecifiedValueIsObserved : Obligations.NoUnspecifiedValueIsObserved := by
  intro es
  induction es with
  | nil => exact fun _ _ _ h => ⟨rfl, h⟩
  | cons e es ih =>
    intro s t seen h
    have hrest := fun seen' => ih (s.react e) (t.react e) seen' (h.react e)
    refine ⟨?_, (hrest seen).2⟩
    cases e with
    | core =>
      rw [observation, observation, h.emitted_eq]
      exact (hrest _).1
    | append bs => exact (hrest seen).1
    | take n => exact (hrest seen).1
    | reset => exact (hrest []).1

end Sys2Proof.Machine
end

section
/-! What the commands leave alone, and the phases that differ in name only (10_state.md R24 to R26). -/

namespace Sys2Proof.Machine

/-- The same context in another phase: what 10_state.md R25 compares. -/
def State.setPhase (s : State) (p : Phase) : State := { s with phase := p }

/-- APPEND_BYTE does not read PHASE. -/
theorem State.appendByte_setPhase (s : State) (p : Phase) (x : Byte) :
    (s.setPhase p).appendByte x = (s.appendByte x).setPhase p := by
  by_cases hroom : s.bufLen.val + 1 < 64
  · rw [State.appendByte_room hroom, State.appendByte_room (s := s.setPhase p) hroom]
    rfl
  · have hfull : s.bufLen.val = 63 := by omega
    rw [State.appendByte_full hfull, State.appendByte_full (s := s.setPhase p) hfull]
    rfl

/-- UPDATE does not read PHASE once it is admitted, and writes it. -/
theorem State.update_setPhase (len : BitVec 24) (data : List Byte) (s : State) (p : Phase) :
    State.update len data (s.setPhase p) = State.update len data s := by
  have happend : (s.setPhase p).append data = (s.append data).setPhase p :=
    List.foldl_hom (State.setPhase · p) fun u x => u.appendByte_setPhase p x
  rw [State.update, happend]
  rfl

/-- FINAL does not read PHASE once it is admitted, and writes it. -/
theorem State.finalize_setPhase (s : State) (p : Phase) : (s.setPhase p).finalize = s.finalize := by
  have hcompress (bs : List Block) :
      bs.foldl State.compressBlock (s.setPhase p) = (bs.foldl State.compressBlock s).setPhase p :=
    List.foldl_hom (State.setPhase · p) fun _ _ => rfl
  rw [State.finalize, hcompress]
  rfl

/-- Settles O4: both phases admit every command, and no command reads PHASE once it is admitted. -/
theorem initAndUpdatingPhasesAgree : Obligations.InitAndUpdatingPhasesAgree := by
  intro i s hp
  change exec i s = exec i (s.setPhase .updating)
  have hs : s.Ready := .inl hp
  have ht : (s.setPhase .updating).Ready := .inr rfl
  cases i with
  | init => rfl
  | update len data =>
    rw [exec, execUpdate, lifecycleChecked_of_ready hs, exec, execUpdate, lifecycleChecked_of_ready ht,
      State.update_setPhase]
  | final =>
    rw [exec, execFinal, lifecycleChecked_of_ready hs, exec, execFinal, lifecycleChecked_of_ready ht,
      State.finalize_setPhase]

/-- Settles O16: each way a command completes, by what its meaning is said to do. -/
theorem commandsKeepMarksAndQueue : Obligations.CommandsKeepMarksAndQueue := by
  intro i s t h
  rcases exec_next_cases h with ⟨rfl, hi⟩ | ⟨hi, hp, rfl⟩ | ⟨hr, len, data, rfl, rfl⟩ | ⟨-, rfl, rfl⟩
  · obtain rfl := Host.Outcome.next.inj hi
    exact ⟨rfl, rfl, rfl, ⟨[statusOk], by simp, rfl⟩, rfl⟩
  · refine ⟨rfl, rfl, rfl, ⟨[statusInvalidState], by simp, rfl⟩, ?_⟩
    cases i with
    | init => exact absurd rfl hi
    | update len data => exact (if_pos hp).symm
    | final => rfl
  · obtain ⟨-, -, -, -, -, -, hbits, -, hf, hm, hq, ho⟩ := State.update_spec len data s
    have hp : s.phase ≠ .finalized := by rcases hr with hp | hp <;> simp [hp]
    exact ⟨hf, hm, hq, ⟨[statusOk], by simp, ho⟩, hbits.trans (if_neg hp).symm⟩
  · obtain ⟨-, -, hbits, -, hf, hm, hq, ho, -⟩ := s.finalize_spec
    exact ⟨hf, hm, hq, ⟨_, by simp, ho⟩, hbits⟩

/-- Settles O17: a step from FINALIZED waits, is rejected, or runs INIT, whose encoding is then at the head of CMDQ. -/
theorem digestIsImmutableUntilInit : Obligations.DigestIsImmutableUntilInit := by
  intro s t hp hs
  obtain ⟨-, -, ⟨-, rfl⟩ | ⟨i, rest, hd, he⟩⟩ := step_next_cases hs
  · exact .inl rfl
  · have hready : ¬ (s.consume rest).Ready := by simp [State.Ready, hp]
    rcases exec_next_cases he with ⟨rfl, -⟩ | ⟨-, -, rfl⟩ | ⟨hr, -⟩ | ⟨hr, -⟩
    · exact .inr ⟨rest, (wf_and_eq_encode_of_decode hd).2⟩
    · exact .inl rfl
    · exact absurd hr hready
    · exact absurd hr hready

end Sys2Proof.Machine
end

section
/-! The counters follow the number of payload bytes (10_state.md R37). -/

namespace Sys2Proof.Machine

/-- `n` payload bytes have come since INIT, and BUF_LEN and BITLEN say so, each in its own range. -/
structure State.Counted (s : State) (n : Nat) : Prop where
  ready : s.Ready
  bufLen : s.bufLen.val = n % 64
  bitLen : s.bitLen = BitVec.ofNat 64 (8 * n)

/-- The two counters are in step: 512 divides 2^64. -/
theorem State.Counted.inStep {s : State} {n : Nat} (h : s.Counted n) : s.bitLen.toNat % 512 = 8 * s.bufLen.val := by
  rw [h.bitLen, h.bufLen, BitVec.toNat_ofNat]
  omega

theorem State.Counted.consume {s : State} {n : Nat} (h : s.Counted n) (rest : List Byte) : (s.consume rest).Counted n :=
  ⟨h.ready, h.bufLen, h.bitLen⟩

/-- The LEN of `updateFrame` is the payload's length where that fits in 24 bits (30_encoding.md R73). -/
theorem toNat_ofNat_length {data : List Byte} (h : data.length ≤ 16777215) :
    (BitVec.ofNat 24 data.length).toNat = data.length := by
  rw [BitVec.toNat_ofNat]
  omega

theorem wf_updateFrame {data : List Byte} (h : data.length ≤ 16777215) : (updateFrame data).wf = true :=
  wf_update_iff.mpr (toNat_ofNat_length h).symm

theorem State.Counted.update {s : State} {n : Nat} {len : BitVec 24} {data : List Byte} (h : s.Counted n)
    (hlen : data.length = len.toNat) : (State.update len data s).Counted (n + data.length) := by
  obtain ⟨-, -, -, -, -, -, hbits, hphase, -⟩ := State.update_spec len data s
  refine ⟨.inr hphase, ?_, ?_⟩
  · rw [State.update_bufLen, h.bufLen]
    omega
  · rw [hbits, h.bitLen, payloadBits, ← BitVec.ofNat_add, ← hlen, Nat.mul_add]

/-- One step runs one UPDATE frame and counts its payload. -/
theorem State.Counted.step_update {s : State} {n : Nat} {data rest : List Byte} (h : s.Counted n) (hu : s.Unmarked)
    (hlen : data.length ≤ 16777215) (hq : s.cmdq = encode (updateFrame data) ++ rest) :
    ∃ t, step s = .next t ∧ t.Counted (n + data.length) ∧ t.Unmarked ∧ t.cmdq = rest := by
  have hc := h.consume rest
  obtain ⟨-, -, -, -, -, -, -, -, hf, hm, hcmdq, -⟩ :=
    State.update_spec (BitVec.ofNat 24 data.length) data (s.consume rest)
  refine ⟨_, ?_, hc.update (toNat_ofNat_length hlen).symm, ⟨hf.trans hu.1, hm.trans hu.2⟩, hcmdq⟩
  exact (step_of_encode hu (wf_updateFrame hlen) hq).trans (lifecycleChecked_of_ready hc.ready _)

/-- A run of UPDATE frames counts all their payloads. -/
theorem State.Counted.run_updates {ps : List (List Byte)} {s : State} {n : Nat} (h : s.Counted n) (hu : s.Unmarked)
    (hlen : ∀ p ∈ ps, p.length ≤ 16777215) (hq : s.cmdq = encodeAll (ps.map updateFrame)) :
    ∃ t, runSteps ps.length s = .next t ∧ t.Counted (n + ps.flatten.length) := by
  induction ps generalizing s n with
  | nil => exact ⟨s, rfl, h⟩
  | cons p ps ih =>
    obtain ⟨hp, hps⟩ := List.forall_mem_cons.mp hlen
    obtain ⟨u, hstep, hcount, hunmarked, hrest⟩ := h.step_update hu hp hq
    obtain ⟨t, hrun, ht⟩ := ih hcount hunmarked hps hrest
    refine ⟨t, (runSteps_succ hstep _).trans hrun, ?_⟩
    rwa [List.flatten_cons, List.length_append, ← Nat.add_assoc]

/-- Settles O46: INIT sets the count to 0, and the UPDATE frames count from there. -/
theorem countersFollowTheTotal : Obligations.CountersFollowTheTotal := by
  intro s ps hu hlen hq
  obtain ⟨u, hinit, hcount, hunmarked, hrest⟩ : ∃ u : State, step s = .next u ∧ u.Counted 0 ∧ u.Unmarked ∧
      u.cmdq = encodeAll (ps.map updateFrame) :=
    ⟨_, step_of_encode hu (i := .init) rfl hq, ⟨.inl rfl, rfl, rfl⟩, hu, rfl⟩
  obtain ⟨t, hrun, ht⟩ := hcount.run_updates hunmarked hlen hrest
  rw [Nat.zero_add] at ht
  exact ⟨t, (runSteps_succ hinit _).trans hrun, ht.bufLen, ht.bitLen, ht.inStep, ht.ready⟩

end Sys2Proof.Machine
end

section
/-! The frames of CMDQ run strictly in order, one a step (20_memory.md R61). -/

namespace Sys2Proof.Machine

/-- An unmarked core with the frames `is`, and then `rest`, in CMDQ; in UNINIT the first of them is INIT
(44_digest_engine.md R181, 60_exceptions.md R202). -/
structure State.Queues (s : State) (is : List Instr) (rest : List Byte) : Prop where
  wf : ∀ i ∈ is, i.wf = true
  unmarked : s.Unmarked
  starts : s.phase = .uninit → ∀ i ∈ is.head?, i = .init
  cmdq : s.cmdq = encodeAll is ++ rest

/-- A command goes on unless it is UPDATE or FINAL in UNINIT (60_exceptions.md R202). -/
theorem exec_next_of_uninit_imp_init {i : Instr} {s : State} (h : s.phase = .uninit → i = .init) :
    ∃ t, exec i s = .next t :=
  (exec_stop_cases i s).resolve_right fun ⟨_, hp, hi⟩ => hi (h hp)

/-- No command goes back to UNINIT (10_state.md R25). -/
theorem exec_next_phase_ne_uninit {i : Instr} {s t : State} (h : exec i s = .next t) : t.phase ≠ .uninit := by
  rcases exec_next_cases h with ⟨-, hi⟩ | ⟨-, hp, rfl⟩ | ⟨-, len, data, -, rfl⟩ | ⟨-, -, rfl⟩
  · obtain rfl := Host.Outcome.next.inj hi
    exact nofun
  · simp [hp]
  · obtain ⟨-, -, -, -, -, -, -, hp, -⟩ := State.update_spec len data s
    simp [hp]
  · obtain ⟨-, -, -, hp, -⟩ := s.finalize_spec
    simp [hp]

section
variable {s : State} {i : Instr} {is : List Instr} {rest : List Byte}

/-- Where the step goes on, it leaves what `advance` says. -/
theorem step_eq_next_advance {t : State} (h : step s = .next t) : step s = .next s.advance :=
  s.advance_cases.resolve_right fun hstop => hstop.1 t h

/-- The step of a core with a frame in CMDQ runs the command of that frame. -/
theorem State.Queues.step_eq_exec (h : s.Queues (i :: is) rest) :
    step s = exec i (s.consume (encodeAll is ++ rest)) :=
  step_of_encode h.unmarked (h.wf i List.mem_cons_self) (by rw [h.cmdq, encodeAll_cons, List.append_assoc])

theorem State.Queues.exec_eq_next_advance (h : s.Queues (i :: is) rest) :
    exec i (s.consume (encodeAll is ++ rest)) = .next s.advance := by
  obtain ⟨t, ht⟩ := exec_next_of_uninit_imp_init (s := s.consume (encodeAll is ++ rest))
    fun hp => h.starts hp i rfl
  rw [← h.step_eq_exec] at ht ⊢
  exact step_eq_next_advance ht

/-- The response of the frame that runs is what the step appends to RSPQ, and it is not empty. -/
theorem State.Queues.emitted_spec (h : s.Queues (i :: is) rest) :
    s.advance.rspq = s.rspq ++ s.emitted ∧ s.emitted ≠ [] := by
  obtain ⟨-, -, -, ⟨r, hr, hrspq⟩, -⟩ := commandsKeepMarksAndQueue i _ _ h.exec_eq_next_advance
  rw [State.consume_rspq] at hrspq
  have hemit : s.emitted = r := by rw [State.emitted, hrspq, List.drop_left]
  rw [hemit]
  exact ⟨hrspq, hr⟩

/-- One step takes one frame out of CMDQ and leaves a core that can run the next. -/
theorem State.Queues.advance (h : s.Queues (i :: is) rest) : s.advance.Queues is rest := by
  have hexec := h.exec_eq_next_advance
  obtain ⟨hfault, hrefused, hcmdq, -, -⟩ := commandsKeepMarksAndQueue i _ _ hexec
  exact {
    wf := fun j hj => h.wf j (List.mem_cons_of_mem i hj)
    unmarked := ⟨hfault.trans h.unmarked.1, hrefused.trans h.unmarked.2⟩
    starts := fun hp => absurd hp (exec_next_phase_ne_uninit hexec)
    cmdq := hcmdq }

/-- The first `k` steps take the first `k` frames out of CMDQ. -/
theorem State.Queues.iterate_advance (h : s.Queues is rest) {k : Nat} (hk : k ≤ is.length) :
    (State.advance^[k] s).Queues (is.drop k) rest := by
  induction k with
  | zero => exact h
  | succ k ih =>
    have hqueues := ih (Nat.le_of_succ_le hk)
    rw [List.drop_eq_getElem_cons hk] at hqueues
    rw [Function.iterate_succ_apply']
    exact hqueues.advance

/-- After `k` steps frame `k` is the next to run. -/
theorem State.Queues.queues_getElem (h : s.Queues is rest) {k : Nat} (hk : k < is.length) :
    (State.advance^[k] s).Queues (is[k] :: is.drop (k + 1)) rest :=
  List.drop_eq_getElem_cons hk ▸ h.iterate_advance hk.le

/-- The run over the frames is the run of `advance`. -/
theorem State.Queues.runSteps_eq (h : s.Queues is rest) :
    runSteps is.length s = .next (State.advance^[is.length] s) := by
  induction is generalizing s with
  | nil => rfl
  | cons i is ih =>
    have hstep : step s = .next s.advance := h.step_eq_exec.trans h.exec_eq_next_advance
    exact (runSteps_succ hstep is.length).trans (ih h.advance)

/-- RSPQ after `k` steps: the responses of the frames run so far, in their order. -/
theorem State.Queues.iterate_advance_rspq (h : s.Queues is rest) {k : Nat} (hk : k ≤ is.length) :
    (State.advance^[k] s).rspq =
      s.rspq ++ ((List.range k).map fun j => (State.advance^[j] s).emitted).flatten := by
  induction k with
  | zero => simp
  | succ k ih =>
    rw [Function.iterate_succ_apply', (h.queues_getElem hk).emitted_spec.1, ih (Nat.le_of_succ_le hk),
      List.range_succ]
    simp

end

/-- Settles O31: the chain of states is the run of `advance`, and a frame's response is what its step emits. -/
theorem framesRunInOrder : Obligations.FramesRunInOrder := by
  intro is s rest hwf hu hfirst hq _
  have h : s.Queues is rest := ⟨hwf, hu, fun hp i hi => by simpa [hfirst hp] using hi.symm, hq⟩
  refine ⟨fun k => State.advance^[k] s, fun k => (State.advance^[k] s).emitted, rfl, fun k hk => ?_, h.runSteps_eq, ?_,
    h.iterate_advance_rspq le_rfl⟩
  · beta_reduce
    rw [Function.iterate_succ_apply']
    exact ⟨(h.queues_getElem hk).exec_eq_next_advance, (h.queues_getElem hk).emitted_spec⟩
  · have hend := (h.iterate_advance le_rfl).cmdq
    rwa [List.drop_length] at hend

end Sys2Proof.Machine
end

section
/-! The instances of a platform share nothing (10_state.md R38, 20_memory.md R65). -/

namespace Sys2Proof.Machine

section
variable {n : Nat}

@[simp] theorem Platform.reactAll_nil (p : Platform n) : p.reactAll [] = p := rfl

@[simp] theorem Platform.reactAll_cons (p : Platform n) (e : Fin n × Event) (es : List (Fin n × Event)) :
    p.reactAll (e :: es) = (p.react e.1 e.2).reactAll es := rfl

/-- The instance an event names reacts. -/
@[simp] theorem Platform.react_cores_self (p : Platform n) (i : Fin n) (e : Event) :
    (p.react i e).cores[i] = p.cores[i].react e :=
  Vector.getElem_set_self i.isLt

/-- Every other instance keeps its whole state. -/
theorem Platform.react_cores_of_ne (p : Platform n) {i j : Fin n} (h : i ≠ j) (e : Event) :
    (p.react i e).cores[j] = p.cores[j] :=
  Vector.getElem_set_ne i.isLt j.isLt (Fin.val_ne_of_ne h)

/-- Events of two different instances, each written as what it does to the instance's state from before both. -/
theorem Platform.react_react_of_ne (p : Platform n) {i j : Fin n} (h : i ≠ j) (e f : Event) :
    (p.react i e).react j f = ⟨(p.cores.set i (p.cores[i].react e)).set j (p.cores[j].react f)⟩ := by
  rw [← p.react_cores_of_ne h e]
  rfl

end

/-- Settles O54 by induction on the events: the first is one of instance `j`, which reacts, or leaves it alone. -/
theorem instancesAreIsolated : Obligations.InstancesAreIsolated := by
  intro n p j es
  induction es generalizing p with
  | nil => rfl
  | cons e es ih =>
    obtain ⟨i, e⟩ := e
    rw [Platform.reactAll_cons, ih]
    by_cases hij : i = j
    · subst hij
      rw [List.filter_cons_of_pos (by simp), Platform.react_cores_self]
      rfl
    · rw [List.filter_cons_of_neg (by simpa using hij), Platform.react_cores_of_ne p hij]

/-- Settles O55: each event writes the state of its own instance only, and so the two writes commute. -/
theorem instancesCommute : Obligations.InstancesCommute := by
  intro n p i j e f hij
  rw [p.react_react_of_ne hij, p.react_react_of_ne hij.symm, Vector.set_comm _ _ (Fin.val_ne_of_ne hij)]

end Sys2Proof.Machine
end

section
/-! The command word and the decoder, byte by byte (30_encoding.md R71 to R77). -/

namespace Sys2Proof

open Machine

/-- Settles O27 by cases of the frame, in `decode_encode_append`. -/
theorem decodeOfEncodeIsTheFrame : Obligations.DecodeOfEncodeIsTheFrame :=
  fun _ rest hwf => decode_encode_append hwf rest

/-- Settles O28 by the cases of the decoder, in `wf_and_eq_encode_of_decode`. -/
theorem decodedFrameIsItsEncoding : Obligations.DecodedFrameIsItsEncoding :=
  fun _ _ _ h => wf_and_eq_encode_of_decode h

/-- A word is sent as OP and the three bytes of OPERAND, the most significant first (20_memory.md R54). -/
theorem be32Bytes_eq_fields (w : Word) :
    be32Bytes w = [opField w, (operandField w).extractLsb' 16 8, (operandField w).extractLsb' 8 8,
      (operandField w).extractLsb' 0 8] := by
  have hbyte {n : Nat} (hn : n + 8 ≤ 24) : (operandField w).extractLsb' n 8 = w.extractLsb' n 8 :=
    BitVec.extractLsb'_extractLsb'_of_le hn
  rw [hbyte (by decide), hbyte (by decide), hbyte (by decide)]
  rfl

/-- Settles O29: UPDATE's word by its fields, the two others by their value. -/
theorem encodedFrames : Obligations.EncodedFrames := by
  refine ⟨by decide, by decide, fun len data => ⟨?_, fun hlen => ?_⟩⟩
  · rw [encode_update, be32Bytes_eq_fields, opField_commandWord, operandField_commandWord]
    rfl
  · exact Laws.FrameLength.update len data (wf_update_iff.mpr hlen)

/-- Settles O30 by evaluation of eight words. -/
theorem tableWordsDecode : Obligations.TableWordsDecode := by
  unfold Obligations.TableWordsDecode
  decide

theorem decode_of_length_lt_four {q : List Byte} (h : q.length < 4) : decode q = .incomplete := by
  match q, h with
  | [], _ => rfl
  | [_], _ => rfl
  | [_, _], _ => rfl
  | [_, _, _], _ => rfl

/-- The value of OPERAND, from the three bytes after OP, decides with OP what the decoder answers. -/
theorem decode_of_four_bytes {b0 b1 b2 b3 : Byte} {q : List Byte} {opd : Nat}
    (hopd : opd = b1.toNat * 65536 + b2.toNat * 256 + b3.toNat) :
    decode (b0 :: b1 :: b2 :: b3 :: q) =
      if b0 = 0x01 then (if opd = 0 then .frame .init q else .reserved .operand)
      else if b0 = 0x03 then (if opd = 0 then .frame .final q else .reserved .operand)
      else if b0 = 0x02 then
        (if q.length < opd then .incomplete
         else .frame (.update (BitVec.ofNat 24 opd) (q.take opd)) (q.drop opd))
      else .reserved .opcode := by
  have hnat : (operandField (be32 b0 b1 b2 b3)).toNat = opd := by rw [hopd, operandField_be32_toNat]
  have hfield : operandField (be32 b0 b1 b2 b3) = BitVec.ofNat 24 opd := by
    rw [← hnat, BitVec.ofNat_toNat, BitVec.setWidth_eq]
  have hzero : operandField (be32 b0 b1 b2 b3) = 0 ↔ opd = 0 := by
    rw [← hnat]
    exact BitVec.toNat_inj.symm
  simp only [decode, decodeWord, opField_be32, hzero, hnat]
  rw [hfield]
  rfl

/-- Settles O26: a sequence is shorter than a command word, or begins with one. -/
theorem decodeOfEveryByteSequence : Obligations.DecodeOfEveryByteSequence :=
  ⟨fun _ => decode_of_length_lt_four, fun _ _ _ _ _ => decode_of_four_bytes rfl⟩

end Sys2Proof
end

section
/-! Which words the step refuses (30_encoding.md R75, R76; 60_exceptions.md R203). -/

namespace Sys2Proof.Machine

/-- A reserved word sets REFUSED with its reason, writes nothing else, and the recorded refusal is answered again. -/
theorem refuses_of_reserved {s : State} {r : ReservedReason} (hu : s.Unmarked) (hd : decode s.cmdq = .reserved r) :
    step s = .refused (refusalOf r) ∧ s.advance = s.markRefused (refusalOf r) ∧
      step s.advance = .refused (refusalOf r) := by
  have hadv : s.advance = s.markRefused (refusalOf r) := by rw [State.advance_unmarked hu.1 hu.2, hd]
  refine ⟨step_of_reserved hu hd, hadv, ?_⟩
  rw [hadv]
  exact step_of_refused hu.1 rfl

/-- No command is refused, so only a reserved word is. -/
theorem reserved_of_step_eq_refused {s : State} {r : Refusal} (hu : s.Unmarked) (h : step s = .refused r) :
    ∃ reason, decode s.cmdq = .reserved reason := by
  cases hd : decode s.cmdq with
  | reserved reason => exact ⟨reason, rfl⟩
  | incomplete => simp [step_of_incomplete hu hd] at h
  | frame i rest =>
    rw [step_of_frame hu hd] at h
    rcases exec_stop_cases i (s.consume rest) with ⟨t, ht⟩ | ⟨ht, -⟩ <;> simp [ht] at h

/-- Settles O24: the decoder's answer by the first byte, and the refusal that follows from it. -/
theorem reservedWordsAreRefused : Obligations.ReservedWordsAreRefused := by
  intro s b0 b1 b2 b3 q hu hq
  have hd := hq ▸ decode_of_four_bytes (b0 := b0) (b1 := b1) (b2 := b2) (b3 := b3) (q := q) rfl
  refine ⟨fun hb => ?_, fun hb hopd => ?_, fun hb r hr => ?_⟩
  · have hne : b0 ≠ 0x01 ∧ b0 ≠ 0x03 ∧ b0 ≠ 0x02 := by
      rcases hb with rfl | hb
      · decide
      · refine ⟨?_, ?_, ?_⟩ <;> rintro rfl <;> exact absurd hb (by decide)
    rw [if_neg hne.1, if_neg hne.2.1, if_neg hne.2.2] at hd
    exact refuses_of_reserved hu hd
  · have hne : b1.toNat * 65536 + b2.toNat * 256 + b3.toNat ≠ 0 := by
      intro h
      have hzero : b1 = 0 ∧ b2 = 0 ∧ b3 = 0 := by bv_omega
      simp [hzero] at hopd
    have hreserved : decode s.cmdq = .reserved .operand := by
      rcases hb with rfl | rfl
      · rw [hd, if_pos rfl, if_neg hne]
      · rw [hd, if_neg (by decide), if_pos rfl, if_neg hne]
    exact refuses_of_reserved hu hreserved
  · obtain ⟨reason, hreserved⟩ := reserved_of_step_eq_refused hu hr
    rw [hd, hb, if_neg (by decide), if_neg (by decide), if_pos rfl] at hreserved
    split at hreserved <;> contradiction

end Sys2Proof.Machine
end

section
/-! The response of a command (30_encoding.md R78, R79). -/

namespace Sys2Proof.Machine

/-- A stop appends nothing to RSPQ. -/
theorem State.advance_rspq_of_stop {s : State} (h : ∀ t, step s ≠ .next t) : s.advance.rspq = s.rspq := by
  rcases s.advance_cases with hs | ⟨-, ha | ⟨r, ha⟩ | ⟨rest, -, ha⟩⟩
  · exact absurd hs (h _)
  · rw [ha]
  · rw [ha, State.markRefused_rspq]
  · rw [ha, State.markFault_rspq, State.consume_rspq]

theorem phase_ne_finalized_of_ready {s : State} (h : s.Ready) : s.phase ≠ .finalized := by
  rcases h with hp | hp <;> simp [hp]

/-- Settles O18: INIT and UPDATE answer OK, a rejected command INVALID_STATE, FINAL OK and the digest. -/
theorem responseOfEveryCommand : Obligations.ResponseOfEveryCommand := by
  refine ⟨fun i s t h => ?_, fun s => State.advance_rspq_of_stop⟩
  rcases exec_next_cases h with ⟨rfl, hi⟩ | ⟨hi, hp, rfl⟩ | ⟨hr, len, data, rfl, rfl⟩ | ⟨hr, rfl, rfl⟩
  · obtain rfl := Host.Outcome.next.inj hi
    exact ⟨statusOk, [], rfl, rfl, .inl rfl, by simp [statusOk], nofun, fun _ => rfl⟩
  · refine ⟨statusInvalidState, [], rfl, ?_, .inr rfl, ?_, nofun, fun _ => rfl⟩
    · cases i <;> rfl
    · simp [statusInvalidState, hp, hi]
  · obtain ⟨-, -, -, -, -, -, -, -, -, -, -, ho⟩ := State.update_spec len data s
    have hp := phase_ne_finalized_of_ready hr
    exact ⟨statusOk, [], ho, rfl, .inl rfl, by simp [statusOk, hp], nofun, fun _ => rfl⟩
  · obtain ⟨-, -, -, -, -, -, -, ho, -⟩ := s.finalize_spec
    have hp := phase_ne_finalized_of_ready hr
    refine ⟨statusOk, digest s.finalize.hash, ho, ?_, .inl rfl, ?_, fun _ _ => rfl, ?_⟩
    · simp [responseLength]
    · simp [statusOk, hp]
    · simp [statusOk]

end Sys2Proof.Machine
end

section
/-! What the pseudo-instructions expand to (30_encoding.md R82). -/

namespace Sys2Proof.Machine

/-- Piece `j` exists where byte `k * j` does. -/
theorem lt_ceil_div_iff {k : Nat} (hk : 1 ≤ k) (n j : Nat) : j < (n + k - 1) / k ↔ k * j < n := by
  rw [← Nat.ceilDiv_eq_add_pred_div, ← not_le, ceilDiv_le_iff_le_mul hk, not_le]

theorem chunksOf_length (k : Nat) (data : List Byte) : (chunksOf k data).length = (data.length + k - 1) / k := by
  simp [chunksOf]

/-- The first `m` pieces of `k` bytes carry the first `k * m` bytes in order. -/
theorem flatten_chunks_eq_take (k : Nat) (data : List Byte) (m : Nat) :
    ((List.range m).map fun j => (data.drop (k * j)).take k).flatten = data.take (k * m) := by
  induction m with
  | zero => rfl
  | succ m ih => simp [List.range_succ, ih, Nat.mul_succ, List.take_add]

section
variable {k : Nat} {data : List Byte}

theorem chunksOf_flatten (hk : 1 ≤ k) : (chunksOf k data).flatten = data := by
  rw [chunksOf, flatten_chunks_eq_take]
  exact List.take_of_length_le (not_lt.mp fun h => lt_irrefl _ ((lt_ceil_div_iff hk _ _).mpr h))

theorem length_of_mem_chunksOf (hk : 1 ≤ k) {p : List Byte} (hp : p ∈ chunksOf k data) :
    1 ≤ p.length ∧ p.length ≤ k := by
  simp only [chunksOf, List.mem_map, List.mem_range, lt_ceil_div_iff hk] at hp
  obtain ⟨j, hj, rfl⟩ := hp
  simp only [List.length_take, List.length_drop]
  omega

/-- Where another piece follows, the piece is full. -/
theorem length_of_mem_dropLast_chunksOf (hk : 1 ≤ k) {p : List Byte} (hp : p ∈ (chunksOf k data).dropLast) :
    p.length = k := by
  rw [chunksOf, ← List.map_dropLast, List.dropLast_eq_take, List.length_range, List.take_range] at hp
  obtain ⟨j, hj, rfl⟩ := List.mem_map.mp hp
  have hnext : k * (j + 1) < data.length := by
    rw [← lt_ceil_div_iff hk]
    have hlt := List.mem_range.mp hj
    omega
  rw [Nat.mul_succ] at hnext
  simp only [List.length_take, List.length_drop]
  omega

theorem wf_of_mem_updateChunked (hk : 1 ≤ k) (hmax : k ≤ maxLen) {i : Instr} (hi : i ∈ updateChunked k data) :
    i.wf = true := by
  obtain ⟨p, hp, rfl⟩ := List.mem_map.mp hi
  exact wf_updateFrame ((length_of_mem_chunksOf hk hp).2.trans hmax)

end

@[simp] theorem updateLong_nil : updateLong [] = [updateFrame []] := rfl

theorem updateLong_of_ne_nil {data : List Byte} (h : data ≠ []) : updateLong data = updateChunked maxLen data := by
  simp [updateLong, h]

/-- Settles O44: the pieces of `chunksOf` are the payloads, but for UPDATE_LONG of no bytes, whose one payload is
empty. -/
theorem pseudoInstructionExpansions : Obligations.PseudoInstructionExpansions := by
  have hmax : 1 ≤ maxLen := by decide
  have hcount (n : Nat) : n + maxLen - 1 = n + 16777214 := Nat.add_sub_assoc hmax n
  refine ⟨fun data => ?_, fun k data hk => ?_, fun data => rfl⟩
  · by_cases hdata : data = []
    · subst hdata
      exact ⟨[[]], rfl, rfl, rfl, nofun, by simp [wf_updateFrame]⟩
    · rw [updateLong_of_ne_nil hdata, if_neg hdata]
      exact ⟨chunksOf maxLen data, rfl, chunksOf_flatten hmax,
        (chunksOf_length maxLen data).trans (by rw [hcount, maxLen]),
        fun p => length_of_mem_dropLast_chunksOf hmax, fun i => wf_of_mem_updateChunked hmax le_rfl⟩
  · exact ⟨chunksOf k data, rfl, chunksOf_flatten hk, fun p => length_of_mem_dropLast_chunksOf hk,
      fun p => length_of_mem_chunksOf hk, fun hle i => wf_of_mem_updateChunked hk hle⟩

end Sys2Proof.Machine
end

section
/-! UPDATE on the block buffer: the blocks it compresses, the bytes of BUF it stores to and what it leaves alone
(41_block_buffer.md R100 to R105). -/

namespace Sys2Proof.Machine

theorem exec_update_of_ready {s : State} (h : s.Ready) (len : BitVec 24) (data : List Byte) :
    exec (.update len data) s = .next (State.update len data s) :=
  lifecycleChecked_of_ready h _

@[simp] theorem State.append_nil (s : State) : s.append [] = s := rfl

@[simp] theorem State.append_cons (s : State) (x : Byte) (data : List Byte) :
    s.append (x :: data) = (s.appendByte x).append data := rfl

/-- APPEND_BYTE writes BUF as one `memWrite` does, whether or not it completes the block. -/
@[simp] theorem State.appendByte_buf (s : State) (x : Byte) : (s.appendByte x).buf = s.buf.set s.bufLen x := by
  unfold State.appendByte
  split <;> rfl

@[simp] theorem State.appendByte_bufLen (s : State) (x : Byte) :
    (s.appendByte x).bufLen.val = (s.bufLen.val + 1) % 64 := by
  by_cases hroom : s.bufLen.val + 1 < 64
  · simp [State.appendByte_room hroom, Nat.mod_eq_of_lt hroom]
  · have hfull : s.bufLen.val = 63 := by omega
    simp [State.appendByte_full hfull, hfull]

theorem State.memRead_appendByte (s : State) (x : Byte) (j n : Nat) :
    (s.appendByte x).memRead j n = (s.memWrite s.bufLen x).memRead j n := by
  simp [State.memRead]

/-- The index of a payload byte after the first, counted from BUF_LEN on entry or after the first byte. -/
theorem State.appendByte_index (s : State) (x : Byte) (k : Nat) :
    ((s.appendByte x).bufLen.val + k) % 64 = (s.bufLen.val + (k + 1)) % 64 := by
  rw [State.appendByte_bufLen]
  omega

/-- APPEND leaves alone each byte of BUF at an index it does not store to. -/
theorem State.memRead_append_other {s : State} {data : List Byte} {j : Nat} (hj : j < 64)
    (h : ∀ k < data.length, (s.bufLen.val + k) % 64 ≠ j) : (s.append data).memRead j 1 = s.memRead j 1 := by
  induction data generalizing s with
  | nil => rfl
  | cons x data ih =>
    have hfirst : s.bufLen.val ≠ j := by
      simpa [Nat.mod_eq_of_lt s.bufLen.isLt] using h 0 (Nat.succ_pos _)
    have hrest : ∀ k < data.length, ((s.appendByte x).bufLen.val + k) % 64 ≠ j := fun k hk => by
      rw [State.appendByte_index]
      exact h (k + 1) (Nat.succ_lt_succ hk)
    rw [State.append_cons, ih hrest, State.memRead_appendByte, State.memRead_memWrite_other s hj hfirst]

/-- A payload byte that none 64 or more places later overwrites is read back where APPEND stored it. -/
theorem State.memRead_append_stored {s : State} {data : List Byte} {k : Nat} (hk : k < data.length)
    (hlast : data.length ≤ k + 64) : (s.append data).memRead ((s.bufLen.val + k) % 64) 1 = [data[k]] := by
  induction data generalizing s k with
  | nil => exact absurd hk (Nat.not_lt_zero k)
  | cons x data ih =>
    rw [List.length_cons] at hk hlast
    have hlen := s.bufLen.isLt
    cases k with
    | zero =>
      have hrest : ∀ k < data.length, ((s.appendByte x).bufLen.val + k) % 64 ≠ s.bufLen.val := fun k hk => by
        rw [State.appendByte_index]
        omega
      rw [Nat.add_zero, Nat.mod_eq_of_lt hlen, State.append_cons, State.memRead_append_other hlen hrest,
        State.memRead_appendByte, State.memRead_memWrite_same, List.getElem_cons_zero]
    | succ k =>
      rw [← State.appendByte_index s x, State.append_cons, ih (by omega) (by omega), List.getElem_cons_succ]

/-- With fewer than 64 bytes buffered in all, APPEND writes BUF and BUF_LEN only. -/
theorem State.append_room {s : State} {data : List Byte} (h : s.bufLen.val + data.length < 64) :
    s.append data = { s with buf := (s.append data).buf, bufLen := (s.append data).bufLen } := by
  induction data generalizing s with
  | nil => rfl
  | cons x data ih =>
    rw [List.length_cons] at h
    have hroom : s.bufLen.val + 1 < 64 := by omega
    have hrest : (s.appendByte x).bufLen.val + data.length < 64 := by
      rw [State.appendByte_bufLen]
      omega
    rw [State.append_cons, ih hrest, State.appendByte_room hroom]

/-- UPDATE leaves in BUF what APPEND does. -/
theorem State.memRead_update (len : BitVec 24) (data : List Byte) (s : State) (j n : Nat) :
    (State.update len data s).memRead j n = (s.append data).memRead j n := rfl

/-- Settles O8: APPEND's own account of the whole blocks of the buffered bytes and the payload, with their number
written as LEN gives it. -/
theorem updateCompressesEveryFullBlock : Obligations.UpdateCompressesEveryFullBlock := by
  intro s len data hlen hr
  obtain ⟨happ, hhash, -, hbufLen, hlive, hdraws, -⟩ := State.update_spec len data s
  have htotal : (s.live ++ data).length = s.bufLen.val + len.toNat := by
    rw [List.length_append, State.live_length, hlen]
  refine ⟨_, exec_update_of_ready hr len data, ?_, ?_, ?_, ?_⟩
  · rw [hhash, happ.hash, compressAll, blocksOf, htotal]
  · rw [hlive, happ.live, htotal]
  · rw [hbufLen, happ.bufLen, htotal]
  · rw [hdraws, happ.draws, htotal]

/-- Settles O11: UPDATE reads back as APPEND does, byte by byte of BUF, and compresses nothing while there is room.
(`updateFrame` is the assembler's.) -/
theorem updateFrameHolds : Obligations.UpdateFrame := by
  intro s t len data hlen hr he
  obtain rfl := Host.Outcome.next.inj ((exec_update_of_ready hr len data).symm.trans he)
  obtain ⟨-, -, -, -, -, -, -, -, hfault, hrefused, hcmdq, -⟩ := State.update_spec len data s
  refine ⟨hfault, hrefused, hcmdq, fun j hj h => ?_, fun k hk hlast => ?_, fun hroom => ?_⟩
  · rw [State.memRead_update, State.memRead_append_other hj h]
  · rw [State.memRead_update, State.memRead_append_stored hk hlast]
  · rw [State.update, State.append_room hroom]
    exact ⟨rfl, rfl, rfl, rfl, rfl⟩

/-- Settles O9: APPEND of one byte is APPEND_BYTE, which is BLOCK_FULL at index 63 only. -/
theorem updateOfOneByte : Obligations.UpdateOfOneByte := by
  intro s x hr
  refine ⟨_, exec_update_of_ready hr 1 [x], s.appendByte_buf x, fun hroom => ?_, fun hfull => ?_⟩
  · have happ : s.append [x] = _ := State.appendByte_room (Nat.succ_lt_succ hroom) x
    rw [State.update, happ]
    exact ⟨rfl, rfl⟩
  · have happ : s.append [x] = _ := State.appendByte_full hfull x
    rw [State.update, happ]
    simp [hfull]

/-- Settles O10: APPEND of no bytes is the identity, and BITLEN grows by 0. -/
theorem updateOfNoBytes : Obligations.UpdateOfNoBytes := by
  intro s hr
  have hbits : s.bitLen + payloadBits 0 = s.bitLen := BitVec.add_zero s.bitLen
  rw [exec_update_of_ready hr, State.update, State.append_nil, hbits]
  rfl

end Sys2Proof.Machine
end

section
/-! The message schedule, the 64 rounds of COMPRESS, and the sliding-window form of both (42_compression_core.md R129 to
R131, R134). -/

namespace Sys2Proof.Machine

theorem messageWords_getD (blk : Block) {t : Nat} (h : t < 16) :
    (messageWords blk).getD t 0 = be32 blk[4 * t] blk[4 * t + 1] blk[4 * t + 2] blk[4 * t + 3] := by
  simp [messageWords, List.getD_eq_getElem?_getD, h]

/-- The first `n` steps of the recurrence already hold the schedule's first 16 + n words. -/
theorem schedule_getD (blk : Block) {n t : Nat} (hn : n ≤ 48) (ht : t < 16 + n) :
    (schedule blk).getD t 0 = (scheduleStep^[n] (messageWords blk)).getD t 0 := by
  have hsplit : schedule blk = scheduleStep^[48 - n] (scheduleStep^[n] (messageWords blk)) := by
    rw [← Function.iterate_add_apply, Nat.sub_add_cancel hn, schedule]
  rw [hsplit, scheduleStep_iterate_getD_old _ (by simpa using ht)]

theorem schedule_getD_message (blk : Block) {t : Nat} (h : t < 16) :
    (schedule blk).getD t 0 = (messageWords blk).getD t 0 :=
  schedule_getD blk (Nat.zero_le 48) h

/-- Word t is the one step t - 16 adds, and that step reads the words before it. -/
theorem schedule_getD_recurrence (blk : Block) {t : Nat} (h : 16 ≤ t) (ht : t < 64) :
    (schedule blk).getD t 0 =
      smallSigma1 ((schedule blk).getD (t - 2) 0) + (schedule blk).getD (t - 7) 0 +
        smallSigma0 ((schedule blk).getD (t - 15) 0) + (schedule blk).getD (t - 16) 0 := by
  obtain ⟨n, rfl⟩ := Nat.exists_eq_add_of_le h
  have hn : n + 1 ≤ 48 := by omega
  have hlen : (scheduleStep^[n] (messageWords blk)).length = 16 + n := by simp
  have hnew := scheduleStep_getD_new (scheduleStep^[n] (messageWords blk))
  rw [hlen, ← Function.iterate_succ_apply' scheduleStep, ← schedule_getD blk hn (by omega)] at hnew
  have hold (j : Nat) (hj : j < 16 + n) := schedule_getD blk (Nat.le_of_succ_le hn) hj
  rw [hnew, hold (16 + n - 2) (by omega), hold (16 + n - 7) (by omega), hold (16 + n - 15) (by omega),
    hold (16 + n - 16) (by omega)]

/-- Settles O37: the message words stay as they are, and each later word is what its step of the recurrence adds. -/
theorem scheduleWords : Obligations.ScheduleWords := fun blk =>
  ⟨schedule_length blk, fun _ h => (schedule_getD_message blk h).trans (messageWords_getD blk h),
    fun _ h ht => schedule_getD_recurrence blk h ht⟩

/-- The working variables before ROUND(t), from the words `w` and the values loaded (42_compression_core.md R134). -/
def workingAt (w : List Word) (v : Working) : Nat → Working
  | 0 => v
  | t + 1 => roundStep (workingAt w v t) (roundConstants.getD t 0) (w.getD t 0)

/-- Going through K and W in step is going through the round numbers. -/
theorem foldl_take_zip_eq_workingAt {w : List Word} (hw : w.length = 64) (v : Working) {t : Nat} (ht : t ≤ 64) :
    ((roundConstants.zip w).take t).foldl (fun v kw => roundStep v kw.1 kw.2) v = workingAt w v t := by
  induction t with
  | zero => rfl
  | succ t ih =>
    have hzip : t < (roundConstants.zip w).length := by simp [hw]; omega
    have hk : t < roundConstants.length := ht
    have hwt : t < w.length := hw ▸ ht
    rw [List.take_succ_eq_append_getElem hzip, List.foldl_concat, ih (Nat.le_of_succ_le ht), List.getElem_zip,
      workingAt, List.getD_eq_getElem _ _ hk, List.getD_eq_getElem _ _ hwt]

theorem rounds_eq_workingAt {w : List Word} (hw : w.length = 64) (v : Working) : rounds w v = workingAt w v 64 := by
  have htake : (roundConstants.zip w).take 64 = roundConstants.zip w := List.take_of_length_le (by simp)
  rw [← foldl_take_zip_eq_workingAt hw v le_rfl, htake, rounds]

theorem compress_eq_feedForward (hin : HashState) (blk : Block) :
    compress hin blk = feedForward hin (workingAt (schedule blk) (load hin) 64) := by
  rw [compress, rounds_eq_workingAt (schedule_length blk)]

/-- Settles O40: the working variables are those `workingAt` gives before each round. -/
theorem compressRunsSixtyFourRounds : Obligations.CompressRunsSixtyFourRounds := fun hin blk =>
  ⟨workingAt (schedule blk) (load hin), rfl, fun _ _ => rfl, compress_eq_feedForward hin blk⟩

/-- Before ROUND(t) the window holds W[t-16..t-1]; the entries before W[0] may be anything
(42_compression_core.md R131). -/
structure WindowAt (w wq : List Word) (t : Nat) : Prop where
  length : wq.length = 16
  back : ∀ k, 1 ≤ k → k ≤ 16 → k ≤ t → wq.getD (16 - k) 0 = w.getD (t - k) 0

/-- Any 16 words are a window before ROUND(0). -/
theorem WindowAt.zero (w : List Word) {wq : List Word} (h : wq.length = 16) : WindowAt w wq 0 :=
  ⟨h, fun k hk _ hle => by omega⟩

/-- The window shifted by one word, with W[t] taken in, is the window of the next round. -/
theorem WindowAt.shift {w wq : List Word} {t : Nat} (h : WindowAt w wq t) :
    WindowAt w (wq.drop 1 ++ [w.getD t 0]) (t + 1) := by
  obtain ⟨hlen, hback⟩ := h
  have hdrop : (wq.drop 1).length = 15 := by simp [hlen]
  refine ⟨by simp [hlen], fun k hk hk16 hle => ?_⟩
  rcases hk.eq_or_lt with rfl | hk1
  · rw [List.getD_append_right _ _ _ _ hdrop.le, hdrop]
    rfl
  · have hplace : 1 + (16 - k) = 16 - (k - 1) := by omega
    have hword : t - (k - 1) = t + 1 - k := by omega
    rw [List.getD_append _ _ _ _ (by omega), List.getD_eq_getElem?_getD, List.getElem?_drop,
      ← List.getD_eq_getElem?_getD, hplace, hback (k - 1) (by omega) (by omega) (by omega), hword]

/-- From such a window the scheduler computes the schedule's own word. -/
theorem WindowAt.windowWord_eq {blk : Block} {wq : List Word} {t : Nat} (h : WindowAt (schedule blk) wq t)
    (ht : t < 64) : windowWord (messageWords blk) wq t = (schedule blk).getD t 0 := by
  by_cases hmsg : t < 16
  · rw [windowWord, if_pos hmsg, schedule_getD_message blk hmsg]
  · have hle : 16 ≤ t := not_lt.mp hmsg
    have hback (k : Nat) (hk : 1 ≤ k ∧ k ≤ 16) := h.back k hk.1 hk.2 (hk.2.trans hle)
    rw [windowWord, if_neg hmsg, schedule_getD_recurrence blk hle ht, ← hback 2 (by decide), ← hback 7 (by decide),
      ← hback 15 (by decide), ← hback 16 (by decide)]

/-- Before each round the window form has the working variables of the full schedule and the window of that round. -/
theorem foldl_windowRound {wq : List Word} (hin : HashState) (blk : Block) (hwq : wq.length = 16) {t : Nat}
    (ht : t ≤ 64) :
    let p := (List.range t).foldl (windowRound (messageWords blk)) (load hin, wq)
    p.1 = workingAt (schedule blk) (load hin) t ∧ WindowAt (schedule blk) p.2 t := by
  induction t with
  | zero => exact ⟨rfl, .zero _ hwq⟩
  | succ t ih =>
    obtain ⟨hwork, hwin⟩ := ih (Nat.le_of_succ_le ht)
    simp only [List.range_succ, List.foldl_concat, windowRound, hwin.windowWord_eq ht, hwork]
    exact ⟨rfl, hwin.shift⟩

/-- Settles O38: the window form keeps the window and the working variables of the full schedule through every round. -/
theorem windowedSchedulerAgrees : Obligations.WindowedSchedulerAgrees := by
  intro wq hin blk hwq
  refine ⟨fun t ht => (foldl_windowRound hin blk hwq ht.le).2.windowWord_eq ht, ?_⟩
  rw [compressWindowed, (foldl_windowRound hin blk hwq le_rfl).1, compress_eq_feedForward]

end Sys2Proof.Machine
end

section
/-! The word functions and one round (42_compression_core.md R121 to R126, R133). -/

namespace Sys2Proof.Machine

theorem getLsbD_ch (x y z : Word) {i : Nat} (hi : i < 32) :
    (ch x y z).getLsbD i = if x.getLsbD i then y.getLsbD i else z.getLsbD i := by
  rw [ch, BitVec.getLsbD_xor, BitVec.getLsbD_and, BitVec.getLsbD_and, BitVec.getLsbD_not, decide_eq_true hi,
    Bool.true_and]
  cases x.getLsbD i <;> simp

theorem getLsbD_maj (x y z : Word) (i : Nat) :
    (maj x y z).getLsbD i = decide (2 ≤ (x.getLsbD i).toNat + (y.getLsbD i).toNat + (z.getLsbD i).toNat) := by
  rw [maj, BitVec.getLsbD_xor, BitVec.getLsbD_xor, BitVec.getLsbD_and, BitVec.getLsbD_and, BitVec.getLsbD_and]
  generalize x.getLsbD i = a, y.getLsbD i = b, z.getLsbD i = c
  revert a b c
  decide

/-- Settles O33: the formulas are the definitions, and their bits are those of `getLsbD_ch` and `getLsbD_maj`. -/
theorem chooseAndMajorityBits : Obligations.ChooseAndMajorityBits := fun x y z =>
  ⟨rfl, rfl, fun i hi => ⟨getLsbD_ch x y z hi, getLsbD_maj x y z i⟩⟩

/-- Settles O34: every amount is below 32, where ROTR is the library's rotation. -/
theorem sigmaFunctions : Obligations.SigmaFunctions := by
  intro x
  have hrot (n : Nat) (hn : n < 32) := rotr_eq_rotateRight x hn
  simp [bigSigma0, bigSigma1, smallSigma0, smallSigma1, shr, hrot]

/-- Settles O39: `roundStep` is the parallel assignment of R133 as it stands. -/
theorem roundEquations : Obligations.RoundEquations := fun _ _ _ => rfl

end Sys2Proof.Machine
end

section
/-! The constant tables against the roots of primes (42_compression_core.md R127, R128). -/

namespace Sys2Proof.Machine

/-- The primes K comes from, 2 to 311 (42_compression_core.md R127), evaluated apart from the search for roots. -/
theorem filter_prime_range : (List.range 312).filter Nat.Prime =
    [2, 3, 5, 7, 11, 13, 17, 19, 23, 29, 31, 37, 41, 43, 47, 53, 59, 61, 67, 71, 73, 79, 83, 89, 97, 101, 103, 107, 109,
      113, 127, 131, 137, 139, 149, 151, 157, 163, 167, 173, 179, 181, 191, 193, 197, 199, 211, 223, 227, 229, 233, 239,
      241, 251, 257, 263, 269, 271, 277, 281, 283, 293, 307, 311] := by
  decide +kernel

/-- Settles O35: the primes once evaluated, each entry is checked against its prime with the integer part searched
below 7. -/
theorem roundConstantsAreCubeRoots : Obligations.RoundConstantsAreCubeRoots := by
  refine ⟨roundConstants_length, ?_⟩
  rw [filter_prime_range]
  decide

/-- Settles O36: each word is checked against its prime, with the integer part searched below 5. -/
theorem initialValuesAreSquareRoots : Obligations.InitialValuesAreSquareRoots := by
  unfold Obligations.InitialValuesAreSquareRoots
  decide

end Sys2Proof.Machine
end

section
/-! The padding blocks byte by byte, and the padded message as whole blocks (43_padding_finalizer.md R160 to R165). -/

namespace Sys2Proof.Machine

theorem zeroBytes_getD (n k : Nat) : (zeroBytes n).getD k 0 = 0 := by
  simp [zeroBytes]

theorem zeroBytes_add (m n : Nat) : zeroBytes (m + n) = zeroBytes m ++ zeroBytes n := List.replicate_add m n 0

/-- Byte k of a big-endian 64-bit value (00_scope.md R10). -/
theorem be64Bytes_getD (v : Counter) {k : Nat} (hk : k < 8) :
    (be64Bytes v).getD k 0 = v.extractLsb' (8 * (7 - k)) 8 := by
  interval_cases k <;> rfl

theorem blockOfBytes_getElem {l : List Byte} (h : l.length = 64) {j : Nat} (hj : j < 64) :
    (blockOfBytes l)[j] = l.getD j 0 := by
  rw [← Vector.getElem_toList (by simpa using hj)]
  simp only [toList_blockOfBytes h]
  rw [List.getD_eq_getElem]

/-- R161: PAD's one-block path. -/
theorem pad_of_le {tail : List Byte} (h : tail.length ≤ 55) (bl : Counter) :
    pad tail bl = [tail ++ [0x80] ++ zeroBytes (55 - tail.length) ++ be64Bytes bl] :=
  if_pos (by omega)

/-- R162: PAD's two-block path. -/
theorem pad_of_ge {tail : List Byte} (h : 56 ≤ tail.length) (bl : Counter) :
    pad tail bl = [tail ++ [0x80] ++ zeroBytes (63 - tail.length), zeroBytes 56 ++ be64Bytes bl] :=
  if_neg (by omega)

/-- The tail, the 0x80 marker at index L and zeros after it, which both paths of PAD begin with. -/
theorem markedTail_getD (tail : List Byte) (n j : Nat) :
    (tail ++ [0x80] ++ zeroBytes n).getD j 0 =
      if j < tail.length then tail.getD j 0 else if j = tail.length then 0x80 else 0 := by
  rw [List.append_assoc]
  split
  case isTrue hlt => exact List.getD_append _ _ _ _ hlt
  case isFalse hge =>
    rw [List.getD_append_right _ _ _ _ (Nat.le_of_not_lt hge)]
    split
    case isTrue heq => simp [heq]
    case isFalse hne =>
      obtain ⟨k, hk⟩ : ∃ k, j - tail.length = k + 1 := ⟨j - tail.length - 1, by omega⟩
      rw [hk, List.singleton_append, List.getD_cons_succ, zeroBytes_getD]

/-- The length field is bytes 56 to 63 of the block it ends. -/
theorem getD_append_be64Bytes {l : List Byte} (h : l.length = 56) (bl : Counter) {j : Nat} (hj : j < 64) :
    (l ++ be64Bytes bl).getD j 0 = if j < 56 then l.getD j 0 else bl.extractLsb' (8 * (63 - j)) 8 := by
  split
  case isTrue hlt => exact List.getD_append _ _ _ _ (by omega)
  case isFalse hge =>
    have hj' : 7 - (j - 56) = 63 - j := by omega
    rw [List.getD_append_right _ _ _ _ (by omega), h, be64Bytes_getD bl (by omega), hj']

/-- Settles O41: each path of PAD as it stands, read by the rules for the marked tail and for the length field. -/
theorem paddingBlocks : Obligations.PaddingBlocks := by
  intro tail bl hlt
  refine ⟨fun hle => ?_, fun hge => ?_⟩
  · refine ⟨_, by rw [padBlocks, pad_of_le hle, List.map_singleton], fun j hj => ?_⟩
    rw [blockOfBytes_getElem (by simp; omega), getD_append_be64Bytes (by simp; omega) bl hj, markedTail_getD]
    rcases Nat.lt_or_ge j 56 with hfill | hlen
    · simp only [if_pos hfill]
    · have hpast : ¬ j < tail.length ∧ j ≠ tail.length := by omega
      simp only [hpast, if_false]
  · refine ⟨_, _, by rw [padBlocks, pad_of_ge hge, List.map_cons, List.map_singleton], fun j hj => ?_, fun j hj => ?_⟩
    · rw [blockOfBytes_getElem (by simp; omega), markedTail_getD]
    · rw [blockOfBytes_getElem (by simp), getD_append_be64Bytes (by simp) bl hj, zeroBytes_getD]

/-- R165: the bytes of PAD's blocks are the tail and the message's padding, with (55 - L) mod 64 zero bytes on both
paths. -/
theorem pad_flatten {tail : List Byte} {n : Nat} (h : tail.length = n % 64) :
    (pad tail (BitVec.ofNat 64 (8 * n))).flatten = tail ++ messagePadding n := by
  rw [messagePadding, ← h]
  rcases Nat.lt_or_ge 55 tail.length with hgt | hle
  · have hz : (55 + 64 - tail.length) % 64 = 63 - tail.length + 56 := by omega
    rw [pad_of_ge hgt, hz, zeroBytes_add]
    simp
  · have hz : (55 + 64 - tail.length) % 64 = 55 - tail.length := by omega
    rw [pad_of_le hle, hz]
    simp

theorem messagePadding_length (n : Nat) : (messagePadding n).length = 9 + (55 + 64 - n % 64) % 64 := by
  simp [messagePadding]
  omega

/-- Settles O42: the number of zero bytes is the one `messagePadding` names, and `pad_flatten` with `blocksOf_pad`
gives the blocks. -/
theorem paddedMessageIsWholeBlocks : Obligations.PaddedMessageIsWholeBlocks := by
  intro m
  refine ⟨?_, ⟨(55 + 64 - m.length % 64) % 64, by omega, by omega, rfl⟩, fun tail htail => ?_⟩
  · rw [List.length_append, messagePadding_length]
    omega
  · rw [← pad_flatten htail, blocksOf_pad (by omega)]

end Sys2Proof.Machine
end

section
/-! INIT, UPDATE and FINAL in every phase (44_digest_engine.md R180 to R185, R188). -/

namespace Sys2Proof.Machine

/-- UPDATE and FINAL are one lifecycle check and what each of them runs behind it (60_exceptions.md R205). -/
theorem exec_eq_lifecycleChecked {i : Instr} (hi : i ≠ .init) (s : State) :
    ∃ run : State → State, exec i s = lifecycleChecked s run := by
  cases i with
  | init => exact absurd rfl hi
  | update len data => exact ⟨State.update len data, rfl⟩
  | final => exact ⟨State.finalize, rfl⟩

/-- UPDATE and FINAL in UNINIT (60_exceptions.md R202). -/
theorem exec_of_uninit {i : Instr} {s : State} (hi : i ≠ .init) (hp : s.phase = .uninit) :
    exec i s = .fault .uninit := by
  obtain ⟨run, hexec⟩ := exec_eq_lifecycleChecked hi s
  rw [hexec, lifecycleChecked, hp]
  rfl

/-- UPDATE and FINAL in FINALIZED (60_exceptions.md R200). -/
theorem exec_of_finalized {i : Instr} {s : State} (hi : i ≠ .init) (hp : s.phase = .finalized) :
    exec i s = .next s.raiseInvalidState := by
  obtain ⟨run, hexec⟩ := exec_eq_lifecycleChecked hi s
  rw [hexec, lifecycleChecked, hp]
  rfl

theorem exec_final_of_ready {s : State} (h : s.Ready) : exec .final s = .next s.finalize :=
  lifecycleChecked_of_ready h _

/-- UPDATE as APPEND and the registers it writes itself: APPEND leaves BITLEN and RSPQ as they were. -/
theorem State.update_eq_append (len : BitVec 24) (data : List Byte) (s : State) :
    State.update len data s =
      { s.append data with
        bitLen := s.bitLen + payloadBits len, phase := .updating, rspq := s.rspq ++ [statusOk] } := by
  have houtside := (State.append_spec data s).outside
  rw [← houtside.bitLen, ← houtside.rspq]
  rfl

/-- Settles O6: the meaning of INIT, with the IV and the status byte written out. -/
theorem initResult : Obligations.InitResult := fun _ => rfl

/-- Settles O7, phase by phase. -/
theorem updateResult : Obligations.UpdateResult := by
  intro s len data _
  refine ⟨exec_of_uninit nofun, exec_of_finalized nofun, fun hr => ?_⟩
  rw [exec_update_of_ready hr, State.update_eq_append]
  rfl

/-- Settles O20, one rule for each answer of the decoder. -/
theorem stepRunsTheDecodedFrame : Obligations.StepRunsTheDecodedFrame := fun _ hu =>
  ⟨fun _ _ hd => ⟨(wf_and_eq_encode_of_decode hd).1, step_of_frame hu hd⟩, fun _ => step_of_reserved hu,
    step_of_incomplete hu⟩

/-- Settles O12, phase by phase; in INIT and UPDATING by what `finalize` does. -/
theorem finalResult : Obligations.FinalResult := by
  intro s
  refine ⟨exec_of_uninit nofun, exec_of_finalized nofun, fun hr => ?_⟩
  obtain ⟨hhash, hbufLen, hbitLen, hphase, hfault, hrefused, hcmdq, hrspq, -⟩ := s.finalize_spec
  exact ⟨s.finalize, exec_final_of_ready hr, hhash, hbufLen, hbitLen, hphase, hfault, hrefused, hcmdq, hrspq⟩

/-- Settles O14: the step runs the frame on the state with the whole of it, payload included, out of CMDQ. -/
theorem rejectedUpdateConsumesPayload : Obligations.RejectedUpdateConsumesPayload := by
  intro s len data rest hlen hu hp hq
  rw [step_of_encode hu (wf_update_iff.mpr hlen) hq]
  exact exec_of_finalized nofun hp

/-- Settles O3, one row of R185's table after another. -/
theorem phaseTransitionTable : Obligations.PhaseTransitionTable := by
  refine ⟨fun s => ⟨_, rfl, rfl, rfl⟩, fun s i => exec_of_uninit, fun s len data hr => ?_, fun s hr => ?_,
    fun s i hi hp => ⟨_, exec_of_finalized hi hp, hp, rfl⟩, State.hostReset_phase⟩
  · obtain ⟨-, -, -, -, -, -, -, hphase, -, -, -, hrspq⟩ := State.update_spec len data s
    exact ⟨_, exec_update_of_ready hr len data, hphase, hrspq⟩
  · obtain ⟨-, -, -, hphase, -, -, -, hrspq, -⟩ := s.finalize_spec
    exact ⟨_, exec_final_of_ready hr, hphase, digest_length _, hrspq⟩

end Sys2Proof.Machine
end

section
/-! The bytes of the digest (44_digest_engine.md R184, 20_memory.md R52). -/

namespace Sys2Proof.Machine

/-- Byte k of a big-endian word (00_scope.md R10). -/
theorem be32Bytes_getElem? (w : Word) {k : Nat} (hk : k < 4) :
    (be32Bytes w)[k]? = some (w.extractLsb' (24 - 8 * k) 8) := by
  interval_cases k <;> rfl

/-- Words sent one after another: byte 4i+k is byte k of word i. -/
theorem flatMap_be32Bytes_getElem? {ws : List Word} {i k : Nat} (hi : i < ws.length) (hk : k < 4) :
    (ws.flatMap be32Bytes)[4 * i + k]? = (be32Bytes ws[i])[k]? := by
  induction ws generalizing i with
  | nil => exact absurd hi (Nat.not_lt_zero i)
  | cons w ws ih =>
    rw [List.flatMap_cons]
    cases i with
    | zero => rw [Nat.mul_zero, Nat.zero_add, List.getElem?_append_left hk, List.getElem_cons_zero]
    | succ i =>
      have hindex : 4 * (i + 1) + k - (be32Bytes w).length = 4 * i + k := by
        rw [be32Bytes_length]
        omega
      rw [List.getElem?_append_right (by rw [be32Bytes_length]; omega), hindex, List.getElem_cons_succ,
        ih (Nat.lt_of_succ_lt_succ hi)]

/-- Settles O43: DIGEST sends the eight words of H in order. -/
theorem digestBytes : Obligations.DigestBytes := by
  refine fun h => ⟨digest_length h, fun i k hi hk => ?_⟩
  rw [digest, flatMap_be32Bytes_getElem? (by simpa using hi) hk, Vector.getElem_toList, be32Bytes_getElem? _ hk]

end Sys2Proof.Machine
end

section
/-! A message in UPDATE frames: how it is cut does not matter, and FINAL answers its digest (44_digest_engine.md R186,
R187, R189). -/

namespace Sys2Proof.Machine

/-- APPEND reads H and the buffered bytes only, and so does what it leaves in them (41_block_buffer.md R104, R105). -/
theorem State.append_congr {s t : State} (hhash : s.hash = t.hash) (hlive : s.live = t.live) (data : List Byte) :
    (s.append data).hash = (t.append data).hash ∧ (s.append data).live = (t.append data).live := by
  have hs := State.append_spec data s
  have ht := State.append_spec data t
  exact ⟨by rw [hs.hash, ht.hash, hhash, hlive], by rw [hs.live, ht.live, hlive]⟩

/-- The context `t` that UPDATE frames with the payloads `ps` leave when they begin in `s`: APPEND of all their bytes,
counted, and an OK for each frame. -/
structure State.AfterUpdates (s : State) (ps : List (List Byte)) (t : State) : Prop where
  ready : t.Ready
  hash : t.hash = (s.append ps.flatten).hash
  live : t.live = (s.append ps.flatten).live
  bitLen : t.bitLen = s.bitLen + BitVec.ofNat 64 (8 * ps.flatten.length)
  rspq : t.rspq = s.rspq ++ List.replicate ps.length statusOk

theorem State.AfterUpdates.refl {s : State} (h : s.Ready) : s.AfterUpdates [] s :=
  ⟨h, rfl, rfl, (BitVec.add_zero s.bitLen).symm, (List.append_nil s.rspq).symm⟩

theorem State.AfterUpdates.consume {s t : State} {ps : List (List Byte)} (h : s.AfterUpdates ps t) (q : List Byte) :
    s.AfterUpdates ps (t.consume q) :=
  ⟨h.ready, h.hash, h.live, h.bitLen, h.rspq⟩

theorem State.AfterUpdates.update {s t : State} {ps : List (List Byte)} {len : BitVec 24} {data : List Byte}
    (h : s.AfterUpdates ps t) (hlen : data.length = len.toNat) :
    s.AfterUpdates (ps ++ [data]) (State.update len data t) := by
  obtain ⟨-, hhash, -, -, hlive, -, hbitLen, hphase, -, -, -, hrspq⟩ := State.update_spec len data t
  obtain ⟨happHash, happLive⟩ := State.append_congr h.hash h.live data
  have hflat : (ps ++ [data]).flatten = ps.flatten ++ data := by simp
  constructor
  case ready => exact .inr hphase
  case hash => rw [hhash, happHash, State.append_append, hflat]
  case live => rw [hlive, happLive, State.append_append, hflat]
  case bitLen =>
    rw [hbitLen, h.bitLen, payloadBits, BitVec.add_assoc, ← BitVec.ofNat_add, hflat, List.length_append, Nat.mul_add,
      hlen]
  case rspq => simp [hrspq, h.rspq, List.replicate_succ']

section
variable {s : State} {is : List Instr} {rest : List Byte}

theorem State.Queues.advance_update {p : List Byte} (h : s.Queues (updateFrame p :: is) rest) (hr : s.Ready) :
    s.advance = State.update (BitVec.ofNat 24 p.length) p (s.consume (encodeAll is ++ rest)) := by
  have hc : (s.consume (encodeAll is ++ rest)).Ready := hr
  exact Host.Outcome.next.inj (h.exec_eq_next_advance.symm.trans (exec_update_of_ready hc _ p))

theorem State.Queues.advance_final (h : s.Queues (.final :: is) rest) (hr : s.Ready) :
    s.advance = (s.consume (encodeAll is ++ rest)).finalize := by
  have hc : (s.consume (encodeAll is ++ rest)).Ready := hr
  exact Host.Outcome.next.inj (h.exec_eq_next_advance.symm.trans (exec_final_of_ready hc))

/-- The steps that run UPDATE frames, whatever frames follow them. -/
theorem State.AfterUpdates.iterate_advance {t : State} {qs ps : List (List Byte)} (h : s.AfterUpdates qs t)
    (hq : t.Queues (ps.map updateFrame ++ is) rest) :
    s.AfterUpdates (qs ++ ps) (State.advance^[ps.length] t) := by
  induction ps generalizing qs t with
  | nil => rwa [List.append_nil]
  | cons p ps ih =>
    rw [List.map_cons, List.cons_append] at hq
    have hlen := wf_update_iff.mp (hq.wf _ List.mem_cons_self)
    have hfirst : s.AfterUpdates (qs ++ [p]) t.advance := hq.advance_update h.ready ▸ (h.consume _).update hlen
    have hall := ih hfirst hq.advance
    rwa [List.append_assoc] at hall

end

/-- UPDATE frames alone in CMDQ run without a stop. -/
theorem run_updates {s : State} {ps : List (List Byte)} (hu : s.Unmarked) (hr : s.Ready)
    (hlen : ∀ p ∈ ps, p.length ≤ 16777215) (hq : s.cmdq = encodeAll (ps.map updateFrame)) :
    ∃ t, runSteps ps.length s = .next t ∧ s.AfterUpdates ps t := by
  have hqueues : s.Queues (ps.map updateFrame ++ []) [] := {
    wf := by simpa using fun p hp => wf_updateFrame (hlen p hp)
    unmarked := hu
    starts := fun hp => by simp [State.Ready, hp] at hr
    cmdq := by simp [hq] }
  refine ⟨_, ?_, (State.AfterUpdates.refl hr).iterate_advance hqueues⟩
  simpa using hqueues.runSteps_eq

/-- Settles O45: both runs leave what APPEND of the one byte sequence leaves, and FINAL reads nothing else. -/
theorem incrementalConsistency : Obligations.IncrementalConsistency := by
  intro s ps qs hunmarked hr hflat hps hqs
  obtain ⟨t, hrunt, ht⟩ := run_updates (s := s.consume (encodeAll (ps.map updateFrame))) hunmarked hr hps rfl
  obtain ⟨u, hrunu, hu⟩ := run_updates (s := s.consume (encodeAll (qs.map updateFrame))) hunmarked hr hqs rfl
  obtain ⟨happHash, happLive⟩ := State.append_congr (s := s.consume (encodeAll (ps.map updateFrame)))
    (t := s.consume (encodeAll (qs.map updateFrame))) rfl rfl ps.flatten
  have hhash : t.hash = u.hash := by rw [ht.hash, hu.hash, happHash, hflat]
  have hlive : t.live = u.live := by rw [ht.live, hu.live, happLive, hflat]
  have hbitLen : t.bitLen = u.bitLen := by rw [ht.bitLen, hu.bitLen, hflat]; rfl
  have hbufLen : t.bufLen = u.bufLen := Fin.ext (by rw [← t.live_length, hlive, u.live_length])
  obtain ⟨hfinalt, -, -, -, -, -, -, hrspqt, -⟩ := t.finalize_spec
  obtain ⟨hfinalu, -, -, -, -, -, -, hrspqu, -⟩ := u.finalize_spec
  refine ⟨t, u, _, _, hrunt, hrunu, hhash, hlive, hbufLen, hbitLen, exec_final_of_ready ht.ready,
    exec_final_of_ready hu.ready, _, hrspqt, ?_⟩
  rw [hrspqu, hfinalu, hfinalt, hhash, hlive, hbitLen]

/-- FINAL compresses what APPEND of the message's padding would (43_padding_finalizer.md R164, R165). -/
theorem State.finalize_hash_eq_append {s : State} {n : Nat} (hbufLen : s.bufLen.val = n % 64)
    (hbitLen : s.bitLen = BitVec.ofNat 64 (8 * n)) : s.finalize.hash = (s.append (messagePadding n)).hash := by
  have htail : s.live.length = n % 64 := s.live_length.trans hbufLen
  rw [s.finalize_spec.1, (State.append_spec _ s).hash, ← pad_flatten htail, blocksOf_pad (by omega), hbitLen]

/-- The registers of the context INIT makes that UPDATE and FINAL read (44_digest_engine.md R181). -/
structure State.Fresh (s : State) : Prop where
  phase : s.phase = .init
  hash : s.hash = iv
  bufLen : s.bufLen = 0
  bitLen : s.bitLen = 0

theorem State.Fresh.live {s : State} (h : s.Fresh) : s.live = [] :=
  List.eq_nil_of_length_eq_zero (by rw [s.live_length, h.bufLen]; rfl)

section
variable {s t : State} {ps : List (List Byte)} {rest : List Byte}

/-- After INIT and UPDATE frames BITLEN holds the message's bit length mod 2^64. -/
theorem State.AfterUpdates.bitLen_of_fresh (h : s.AfterUpdates ps t) (hs : s.Fresh) :
    t.bitLen = BitVec.ofNat 64 (8 * ps.flatten.length) := by
  rw [h.bitLen, hs.bitLen]
  exact BitVec.zero_add _

/-- After INIT and UPDATE frames FINAL leaves in H what the message and its padding give. -/
theorem State.AfterUpdates.digest_finalize (h : s.AfterUpdates ps t) (hs : s.Fresh) :
    digest t.finalize.hash = messageDigest ps.flatten := by
  have htail : t.bufLen.val = ps.flatten.length % 64 := by
    rw [← t.live_length, h.live, State.live_length, (State.append_spec _ s).bufLen, hs.live, List.nil_append]
  rw [messageDigest, State.finalize_hash_eq_append htail (h.bitLen_of_fresh hs),
    (State.append_congr h.hash h.live _).1, State.append_append, (State.append_spec _ s).hash, hs.live, hs.hash,
    List.nil_append]

theorem State.Queues.advance_init {is : List Instr} (h : s.Queues (.init :: is) rest) :
    s.advance.Fresh ∧ s.advance.rspq = s.rspq ++ [statusOk] := by
  have hinit : _ = s.advance := Host.Outcome.next.inj h.exec_eq_next_advance
  rw [← hinit]
  exact ⟨⟨rfl, rfl, rfl, rfl⟩, rfl⟩

/-- INIT, frames and FINAL at the head of CMDQ: INIT makes the phase before it irrelevant. -/
theorem State.queues_message {is : List Instr} (hu : s.Unmarked)
    (hwf : ∀ i ∈ is, i.wf = true) (hq : s.cmdq = encodeAll (.init :: (is ++ [.final])) ++ rest) :
    s.Queues (.init :: (is ++ [.final])) rest where
  wf i hi := by
    simp only [List.mem_cons, List.mem_append, List.not_mem_nil, or_false] at hi
    rcases hi with rfl | hi | rfl
    · rfl
    · exact hwf i hi
    · rfl
  unmarked := hu
  starts _ i hi := (Option.some.inj hi).symm
  cmdq := hq

/-- The run over INIT, a message in UPDATE frames and FINAL, with the context `u` that INIT leaves and the context `v`
that FINAL runs in. -/
theorem State.Queues.run_to_final (h : s.Queues (.init :: (ps.map updateFrame ++ [.final])) rest) :
    ∃ u v : State, u.Fresh ∧ u.rspq = s.rspq ++ [statusOk] ∧ u.AfterUpdates ps v ∧ v.Queues [.final] rest ∧
      runSteps (ps.length + 2) s = .next v.advance := by
  obtain ⟨hfresh, hrspq⟩ := h.advance_init
  have hupdates := (State.AfterUpdates.refl (.inl hfresh.phase)).iterate_advance h.advance
  refine ⟨s.advance, State.advance^[ps.length] s.advance, hfresh, hrspq, hupdates, ?_, ?_⟩
  · simpa using h.advance.iterate_advance (k := ps.length) (by simp)
  · rw [← Function.iterate_succ_apply, ← Function.iterate_succ_apply' State.advance]
    simpa using h.runSteps_eq

/-- What that run leaves, whatever the state before. -/
theorem State.Queues.run_message (h : s.Queues (.init :: (ps.map updateFrame ++ [.final])) rest) :
    ∃ t : State, runSteps (ps.length + 2) s = .next t ∧ t.Queues [] rest ∧ t.phase = .finalized ∧
      t.bitLen = BitVec.ofNat 64 (8 * ps.flatten.length) ∧
      t.rspq = s.rspq ++ List.replicate (ps.length + 1) statusOk ++ statusOk :: messageDigest ps.flatten := by
  obtain ⟨u, v, hfresh, hrspq, hupdates, hlast, hrun⟩ := h.run_to_final
  have hfinal : v.advance = (v.consume rest).finalize := hlast.advance_final hupdates.ready
  obtain ⟨-, -, hbitLen, hphase, -, -, -, hresponse, -⟩ := (v.consume rest).finalize_spec
  refine ⟨v.advance, hrun, hlast.advance, ?_, ?_, ?_⟩ <;> rw [hfinal]
  · exact hphase
  · exact hbitLen.trans (hupdates.bitLen_of_fresh hfresh)
  · rw [hresponse, (hupdates.consume rest).digest_finalize hfresh, State.consume_rspq, hupdates.rspq, hrspq,
      List.append_assoc s.rspq, List.singleton_append, ← List.replicate_succ]

end

/-- Settles O47 by the run over INIT, the UPDATE frames and FINAL. -/
theorem anySplitReturnsTheMessageDigest : Obligations.AnySplitReturnsTheMessageDigest := by
  intro s ps rest hu hlen hq
  have hwf : ∀ i ∈ ps.map updateFrame, i.wf = true := List.forall_mem_map.mpr fun p hp => wf_updateFrame (hlen p hp)
  obtain ⟨t, hrun, hend, hphase, -, hrspq⟩ := (State.queues_message hu hwf hq).run_message
  exact ⟨t, hrun, hend.cmdq, hphase, hrspq⟩

/-- Settles O48: UPDATE_LONG is UPDATE frames that carry the message, so HASH is such a run with nothing after FINAL. -/
theorem hashReturnsTheMessageDigest : Obligations.HashReturnsTheMessageDigest := by
  intro s m hu hq
  obtain ⟨ps, hps, rfl, -, -, hwf⟩ := pseudoInstructionExpansions.1 m
  have hqueues := State.queues_message hu hwf (rest := []) (by rw [hq, List.append_nil]; rfl)
  have hlength : (hashProgram ps.flatten).length = ps.length + 2 := by simp [hashProgram, hps]
  rw [hps] at hqueues
  obtain ⟨t, hrun, hend, hphase, hbitLen, hrspq⟩ := hqueues.run_message
  rw [hlength]
  refine ⟨t, hrun, hend.cmdq, hphase, ?_, hbitLen, hrspq⟩
  simp [State.atEnd, hend.cmdq, hend.unmarked]

end Sys2Proof.Machine
end

section
/-! A set mark stays set, and its core takes no further step (60_exceptions.md R214). -/

namespace Sys2Proof.Machine

variable {s : State}

/-- No event clears a mark or sets another one: the core stays as it is, and a host action writes neither mark. -/
theorem State.react_keeps_marks (h : s.fault ≠ none ∨ s.refused ≠ none) (e : Event) :
    (s.react e).fault = s.fault ∧ (s.react e).refused = s.refused := by
  cases e with
  | core =>
    have hadvance : s.react .core = s := (State.advance_marked h).1
    rw [hadvance]
    exact ⟨rfl, rfl⟩
  | append bs => exact ⟨s.hostAppend_fault bs, s.hostAppend_refused bs⟩
  | take n => exact ⟨s.hostTake_fault n, s.hostTake_refused n⟩
  | reset => exact ⟨s.hostReset_fault, s.hostReset_refused⟩

theorem State.atEnd_of_marked (h : s.fault ≠ none ∨ s.refused ≠ none) : s.atEnd = false := by
  rcases h with hf | hr
  · simp [State.atEnd, hf]
  · simp [State.atEnd, Option.isSome_iff_ne_none, hr]

/-- Settles O5: what holds of any marked core, said of each mark. -/
theorem marksAreSticky : Obligations.MarksAreSticky := by
  intro s
  refine ⟨fun f hf => ?_, fun r hr => ?_⟩
  · have hmarked : s.fault ≠ none ∨ s.refused ≠ none := .inl (by simp [hf])
    exact ⟨step_of_fault hf, (State.advance_marked hmarked).1, State.atEnd_of_marked hmarked,
      fun e => (State.react_keeps_marks hmarked e).1.trans hf⟩
  · have hmarked : s.fault ≠ none ∨ s.refused ≠ none := .inr (by simp [hr])
    obtain ⟨hadvance, hstop⟩ := State.advance_marked hmarked
    exact ⟨hstop, hadvance, State.atEnd_of_marked hmarked,
      fun e => (State.react_keeps_marks hmarked e).2.trans hr⟩

end Sys2Proof.Machine
end

section
/-! UPDATE and FINAL outside the phases in which they run (60_exceptions.md R200 to R202). -/

namespace Sys2Proof.Machine

/-- Settles O15: the command faults on the state with the frame consumed, and the recorded fault is answered again. -/
theorem useBeforeInitFaults : Obligations.UseBeforeInitFaults := by
  intro s i rest hwf hi hu hp hq
  have hdecode : decode s.cmdq = .frame i rest := by rw [hq, decode_encode_append hwf]
  have hexec : exec i (s.consume rest) = .fault .uninit := exec_of_uninit hi hp
  have hadvance : s.advance = (s.consume rest).markFault .uninit := by
    rw [State.advance_of_frame hu hdecode, hexec]
    rfl
  refine ⟨(step_of_frame hu hdecode).trans hexec, hadvance, ?_⟩
  rw [hadvance]
  exact step_of_fault (State.markFault_fault _ _)

/-- Settles O13: the rejection, the step that consumes the frame first, and INIT's status byte. -/
theorem finalizedRejectsUpdateAndFinal : Obligations.FinalizedRejectsUpdateAndFinal := by
  refine ⟨fun i s hi hp => exec_of_finalized hi hp, fun i s rest hwf hi hu hp hq => ?_, fun s t h hrspq => ?_⟩
  · rw [step_of_encode hu hwf hq]
    exact exec_of_finalized hi hp
  · obtain rfl := Host.Outcome.next.inj h
    have hstatus : [statusOk] = [statusInvalidState] := List.append_cancel_left hrspq
    exact absurd hstatus (by decide)

end Sys2Proof.Machine
end

section
/-! The order of checks, and what stops the core (60_exceptions.md R205). -/

namespace Sys2Proof.Machine

/-- A command has no next state exactly when it is UPDATE or FINAL in UNINIT. -/
theorem exec_stops_iff (i : Instr) (s : State) :
    (∀ t, exec i s ≠ .next t) ↔ i ≠ .init ∧ s.phase = .uninit := by
  constructor
  · intro hstop
    rcases exec_stop_cases i s with ⟨t, ht⟩ | ⟨-, hp, hi⟩
    · exact absurd ht (hstop t)
    · exact ⟨hi, hp⟩
  · rintro ⟨hi, hp⟩ t
    simp [exec_of_uninit hi hp]

/-- INIT in any phase, and UPDATE and FINAL in INIT and UPDATING, complete with status OK. -/
theorem exec_completes {i : Instr} {s : State} (h : i = .init ∨ s.Ready) :
    ∃ t r, exec i s = .next t ∧ t.rspq = s.rspq ++ statusOk :: r := by
  have hinit : s.phase = .uninit → i = .init := fun hp => h.resolve_right (by simp [State.Ready, hp])
  obtain ⟨t, ht⟩ := exec_next_of_uninit_imp_init hinit
  obtain ⟨status, r, hrspq, -, hstatus, hrejected, -⟩ := responseOfEveryCommand.1 i s t ht
  have hok : status = statusOk := hstatus.resolve_right fun h01 => by
    obtain ⟨hp, hi⟩ := hrejected.mp h01
    exact phase_ne_finalized_of_ready (h.resolve_left hi) hp
  exact ⟨t, r, ht, hok ▸ hrspq⟩

/-- Settles O21: a marked core, then one rule for each answer of the decoder, and for a frame one for each answer of
the lifecycle check. -/
theorem orderOfChecks : Obligations.OrderOfChecks := by
  intro s
  refine ⟨fun hmarked => (State.advance_marked (not_and_or.mp hmarked)).2, fun hu _ => step_of_reserved hu,
    step_of_incomplete, fun hu i rest hd => ?_⟩
  rw [step_of_frame hu hd]
  refine ⟨fun hi hp => exec_of_uninit hi hp, fun hi hp => exec_of_finalized hi hp, fun h => ?_⟩
  obtain ⟨t, r, ht, hrspq⟩ := exec_completes (s := s.consume rest) h
  exact ⟨t, r, ht, ht, hrspq⟩

/-- Settles O22: on a marked core at once, and else by what the decoder answers. -/
theorem onlyTheseStopTheCore : Obligations.OnlyTheseStopTheCore := by
  intro s
  by_cases hu : s.Unmarked
  · cases hd : decode s.cmdq with
    | reserved reason => simp [hu, step_of_reserved hu hd]
    | incomplete => simp [hu, step_of_incomplete hu hd]
    | frame i rest => simp [hu, step_of_frame hu hd, exec_stops_iff]
  · simp only [hu, not_false_eq_true, true_or, iff_true]
    exact (State.advance_marked (not_and_or.mp hu)).2

end Sys2Proof.Machine
end

section
/-! Reset and the number of COMPRESS runs (70_reset_and_hazards.md R230, R232, R239). -/

namespace Sys2Proof.Machine

/-- Settles O2: field by field; with CMDQ flushed the decoder has no frame, so an unmarked core waits. -/
theorem resetEventClearsPhaseAndStreams : Obligations.ResetEventClearsPhaseAndStreams := by
  intro s bs
  have hwait (hu : s.Unmarked) : step s.hostReset = .next s.hostReset :=
    step_of_incomplete ⟨s.hostReset_fault.trans hu.1, s.hostReset_refused.trans hu.2⟩ rfl
  exact ⟨rfl, rfl, rfl, rfl, rfl, rfl, rfl, rfl, rfl, rfl, hwait⟩

/-- PAD builds one block while the tail leaves room for the mark and the length, and two beyond
(43_padding_finalizer.md R163). -/
theorem padBlocks_length (tail : List Byte) (bl : Counter) :
    (padBlocks tail bl).length = if tail.length ≤ 55 then 1 else 2 := by
  rw [padBlocks, List.length_map]
  split
  case isTrue hle => rw [pad_of_le hle, List.length_singleton]
  case isFalse hgt => rw [pad_of_ge (by omega), List.length_cons, List.length_singleton]

/-- FINAL runs COMPRESS once for each padding block, and draws once more for BUF. -/
theorem State.finalize_draws (s : State) :
    s.finalize.draws = s.draws + compressCount .final s.bufLen + 1 := by
  obtain ⟨-, -, -, -, -, -, -, -, hdraws⟩ := s.finalize_spec
  rw [hdraws, padBlocks_length, State.live_length]
  rfl

/-- Settles O19, command by command; UPDATE's count is the one in `updateCompressesEveryFullBlock`. -/
theorem workDependsOnLengthsOnly : Obligations.WorkDependsOnLengthsOnly := by
  intro i s t hwf hready h
  cases i with
  | init =>
    obtain rfl := Host.Outcome.next.inj h
    rfl
  | update len data =>
    obtain ⟨u, hu, -, -, -, hdraws⟩ :=
      updateCompressesEveryFullBlock s len data (wf_update_iff.mp hwf) (hready nofun)
    obtain rfl := Host.Outcome.next.inj (hu.symm.trans h)
    exact hdraws
  | final =>
    obtain rfl := Host.Outcome.next.inj ((exec_final_of_ready (hready nofun)).symm.trans h)
    exact s.finalize_draws

end Sys2Proof.Machine
end

section
/-! Waiting for bytes, and runs that never stop (70_reset_and_hazards.md R233, R237, R238). -/

namespace Sys2Proof.Machine

variable {s : State}

/-- A core that waits stays as it is. -/
theorem State.advance_of_incomplete (hu : s.Unmarked) (hd : decode s.cmdq = .incomplete) : s.advance = s := by
  rw [State.advance_unmarked hu.1 hu.2, hd]

theorem SafeRun.of_step {t : State} {k : Nat} (hstep : step s = .next t) (h : SafeRun k t) : SafeRun (k + 1) s := by
  obtain ⟨u, hrun⟩ := h
  exact ⟨u, (runSteps_succ hstep k).trans hrun⟩

/-- With frames in CMDQ, and after them less than a frame, the core runs the frames and then waits. -/
theorem State.Queues.safeRun {is : List Instr} {rest : List Byte} (h : s.Queues is rest)
    (hrest : decode rest = .incomplete) (k : Nat) : SafeRun k s := by
  induction k generalizing s is with
  | zero => exact ⟨s, rfl⟩
  | succ k ih =>
    cases is with
    | nil =>
      have hwait : step s = .next s := step_of_incomplete h.unmarked (h.cmdq ▸ hrest)
      exact (ih h).of_step hwait
    | cons i is =>
      have hrun : step s = .next s.advance := h.step_eq_exec.trans h.exec_eq_next_advance
      exact (ih h.advance).of_step hrun

/-- Settles O23: nothing follows the frames, and no bytes are less than a frame. -/
theorem wellFormedStreamsRunSafely : Obligations.WellFormedStreamsRunSafely := by
  intro is s k hwf hu hfirst hq
  have h : s.Queues is [] := {
    wf := hwf
    unmarked := hu
    starts := fun hp i hi => by
      have hne : is ≠ [] := List.ne_nil_of_mem (List.mem_of_mem_head? hi)
      exact Option.some.inj (hi.symm.trans (hfirst hp hne))
    cmdq := by rw [hq, List.append_nil] }
  exact h.safeRun rfl k

/-- An UPDATE word with fewer than LEN bytes after it is no frame yet (30_encoding.md R74, R77). -/
theorem decode_of_short_payload {len : BitVec 24} {q : List Byte} (h : q.length < len.toNat) :
    decode (encode (.update len []) ++ q) = .incomplete := by
  rw [encode_update, List.append_nil, decode_be32Bytes, decodeWord_update, if_pos h]

/-- Settles O25: the word is that of an UPDATE frame; short of LEN bytes the decoder waits, and with them it reads the
frame back. -/
theorem incompletePayloadWaits : Obligations.IncompletePayloadWaits := by
  intro s len q hu hq hshort
  obtain ⟨-, -, hupdate⟩ := encodedFrames
  have hword : s.cmdq = encode (.update len []) ++ q := by rw [hq, (hupdate len []).1, List.append_nil]
  have hd : decode s.cmdq = .incomplete := hword ▸ decode_of_short_payload hshort
  refine ⟨step_of_incomplete hu hd, State.advance_of_incomplete hu hd, fun bs data rest hsplit hlen => ?_⟩
  have hframe : (s.hostAppend bs).cmdq = encode (.update len data) ++ rest := by
    rw [State.hostAppend_cmdq, hword, List.append_assoc, hsplit]
    simp
  exact step_of_encode hu (wf_update_iff.mpr hlen) hframe

end Sys2Proof.Machine
end
